-- ==== Sys2Proof/Word.lean ====
section
/-! DEFINITION. The words, bytes and pixels the block moves (20_memory.md R46). -/

namespace Sys2Proof

/-- A command word or a register value: 32 bits (R46, R56). -/
abbrev Word := BitVec 32

/-- One output byte, and one 8-bit colour channel (R46). -/
abbrev Byte := BitVec 8

/-- One frame on the output port: a list of bytes (R31). -/
abbrev Frame := List Byte

/-- One pixel: a triple of 8-bit channels (R17, R26). -/
structure Pixel where
  r : Byte
  g : Byte
  b : Byte
deriving DecidableEq, Repr

/-- One row of a glyph: a 4-bit row word (R46, R97). -/
abbrev RowWord := BitVec 4

/-- The digit font: eight row words for each of ten digits (R12, R30, R96). -/
abbrev GlyphRom := Vector (Vector RowWord 8) 10

end Sys2Proof
end

