-- ==== Sys2Proof/Syntax.lean ====
section
/-! DEFINITION. The commands of command set 1 (30_encoding.md R63): one constructor per row of opcode_table.json. -/

namespace Sys2Proof

/-- A command with its operands, each field at the width its format gives it (R57 to R62). -/
inductive Instr where
  /-- NOP (R117). -/
  | nop
  /-- CLEAR (R83). -/
  | clear
  /-- SETCOLOR r, g, b (R85). -/
  | setcolor (r g b : Byte)
  /-- MASKCLR (R87). -/
  | maskclr
  /-- MASKPUSH cnt, data (R89). -/
  | maskpush (cnt : BitVec 5) (data : BitVec 16)
  /-- COMPOSITE (R92). -/
  | composite
  /-- SERP (R76). -/
  | serp
  /-- GLYPH2 d (R100). -/
  | glyph2 (d : BitVec 28)
  /-- GLYPH4 d (R103). -/
  | glyph4 (d : BitVec 28)
  /-- GLYPH8 d (R106). -/
  | glyph8 (d : BitVec 28)
  /-- EMIT (R109). -/
  | emit
  /-- FILL r, g, b (R113). -/
  | fill (r g b : Byte)
  /-- CLRSTAT (R118). -/
  | clrstat
deriving DecidableEq, Repr

end Sys2Proof
end

