-- ==== Sys2Proof/WellFormed.lean ====
section
/-! DEFINITION. Which commands have a word: the one operand check of command set 1 (30_encoding.md R60, R66). -/

namespace Sys2Proof

/-- CNT "must be in 1..16" (R60). -/
def countInRange (cnt : BitVec 5) : Bool :=
  decide (1 ≤ cnt.toNat) && decide (cnt.toNat ≤ 16)

/-- A command is well-formed when every operand is one its format admits. Only MASKPUSH has a check: a colour and a
digit operand are legal at every value (R59, R61, R85). -/
def Instr.wellFormed : Instr → Bool
  | .nop => true
  | .clear => true
  | .setcolor _ _ _ => true
  | .maskclr => true
  | .maskpush cnt _ => countInRange cnt
  | .composite => true
  | .serp => true
  | .glyph2 _ => true
  | .glyph4 _ => true
  | .glyph8 _ => true
  | .emit => true
  | .fill _ _ _ => true
  | .clrstat => true

end Sys2Proof
end

