-- ==== Sys2Proof/Decode.lean ====
section
/-! DEFINITION. Decoding a command word, and after it encoding one (30_encoding.md R56 to R70). -/

namespace Sys2Proof

/-- Why a word is illegal (R65, R66). Every cause has the same effect (R120). -/
inductive IllegalCause where
  /-- Opcode 0xD, 0xE or 0xF (R65). -/
  | reservedOpcode
  /-- A nonzero reserved field of format Z, C or M (R66). -/
  | reservedField
  /-- MASKPUSH with CNT = 0 or CNT > 16 (R66). -/
  | countOutOfRange
deriving DecidableEq, Repr

/-- The one outcome of decoding a word: a command with its operands, or ILLEGAL (R68). -/
inductive Decoded where
  | command (i : Instr)
  | illegal (cause : IllegalCause)
deriving DecidableEq, Repr

/-- word[31:28] (R56). -/
def opcodeOf (w : Word) : BitVec 4 := w.extractLsb' 28 4

/-- word[27:0], the operand field (R56) and the DIG field of format D (R61). -/
def operandOf (w : Word) : BitVec 28 := w.extractLsb' 0 28

/-- word[27:24], reserved in format C (R59). -/
def reservedC (w : Word) : BitVec 4 := w.extractLsb' 24 4

/-- word[27:21], reserved in format M (R60). -/
def reservedM (w : Word) : BitVec 7 := w.extractLsb' 21 7

/-- R = word[23:16] (R59). -/
def redOf (w : Word) : Byte := w.extractLsb' 16 8

/-- G = word[15:8] (R59). -/
def greenOf (w : Word) : Byte := w.extractLsb' 8 8

/-- B = word[7:0] (R59). -/
def blueOf (w : Word) : Byte := w.extractLsb' 0 8

/-- CNT = word[20:16] (R60). -/
def countOf (w : Word) : BitVec 5 := w.extractLsb' 16 5

/-- DATA = word[15:0] (R60). -/
def dataOf (w : Word) : BitVec 16 := w.extractLsb' 0 16

/-- Format Z: word[27:0] must be 0 (R58). -/
def decodeZ (w : Word) (i : Instr) : Decoded :=
  if operandOf w = 0#28 then .command i else .illegal .reservedField

/-- Format C: word[27:24] must be 0 (R59). -/
def decodeC (w : Word) (mk : Byte → Byte → Byte → Instr) : Decoded :=
  if reservedC w = 0#4 then .command (mk (redOf w) (greenOf w) (blueOf w)) else .illegal .reservedField

/-- Format M: word[27:21] must be 0 and CNT in 1..16; DATA is not checked (R60). -/
def decodeM (w : Word) (mk : BitVec 5 → BitVec 16 → Instr) : Decoded :=
  if reservedM w = 0#7 then
    if countInRange (countOf w) then .command (mk (countOf w) (dataOf w)) else .illegal .countOutOfRange
  else .illegal .reservedField

/-- Format D: no reserved bits (R61). -/
def decodeD (w : Word) (mk : BitVec 28 → Instr) : Decoded :=
  .command (mk (operandOf w))

/-- The decoder, total on all 2^32 words (R64). -/
def decode (w : Word) : Decoded :=
  match (opcodeOf w).toNat with
  | 0x0 => decodeZ w .nop
  | 0x1 => decodeZ w .clear
  | 0x2 => decodeC w .setcolor
  | 0x3 => decodeZ w .maskclr
  | 0x4 => decodeM w .maskpush
  | 0x5 => decodeZ w .composite
  | 0x6 => decodeZ w .serp
  | 0x7 => decodeD w .glyph2
  | 0x8 => decodeD w .glyph4
  | 0x9 => decodeD w .glyph8
  | 0xA => decodeZ w .emit
  | 0xB => decodeC w .fill
  | 0xC => decodeZ w .clrstat
  | _ => .illegal .reservedOpcode

/-- A word the decoder maps to a command. -/
def Decoded.isCommand : Decoded → Bool
  | .command _ => true
  | .illegal _ => false

/-! ### Words written as bytes -/

/-- Bytes b0 b1 b2 b3 form the word b0 b1 b2 b3, most significant byte first (R43). -/
def wordOfBytes (b0 b1 b2 b3 : Byte) : Word := b0 ++ b1 ++ b2 ++ b3

/-- A word, or a register value, written out as bytes (R43). -/
def bytesOfWord (w : Word) : List Byte :=
  [w.extractLsb' 24 8, w.extractLsb' 16 8, w.extractLsb' 8 8, w.extractLsb' 0 8]

/-- What reading one command from a list of bytes gives. -/
inductive FromBytes where
  | word (d : Decoded) (rest : List Byte)
  /-- Fewer than the four bytes every command has (R56): no command word stands there. -/
  | partialWord
deriving DecidableEq, Repr

/-- Decoding the first command of any list of bytes (R43, R56). -/
def decodeBytes : List Byte → FromBytes
  | b0 :: b1 :: b2 :: b3 :: rest => .word (decode (wordOfBytes b0 b1 b2 b3)) rest
  | [] => .partialWord
  | [_] => .partialWord
  | [_, _] => .partialWord
  | [_, _, _] => .partialWord

/-- The word whose lowest `nbits` bits are those of w, and whose other bits are 0. -/
def tableWord (nbits w : Nat) : Word := BitVec.ofNat 32 (w % 2 ^ nbits)

/-- The command the decoder reads from a word that opcode_table.json numbers with bit 0 least significant, laid out
in its bytes (R43). -/
def decodeTableWord (nbits w : Nat) : Option Instr :=
  match decodeBytes (bytesOfWord (tableWord nbits w)) with
  | .word (.command i) _ => some i
  | .word (.illegal _) _ => none
  | .partialWord => none

/-! ### Encoding -/

/-- Format Z (R57). -/
def encodeZ (op : BitVec 4) : Word := op ++ 0#28

/-- Format C (R57). -/
def encodeC (op : BitVec 4) (r g b : Byte) : Word := op ++ 0#4 ++ r ++ g ++ b

/-- Format M (R57). -/
def encodeM (op : BitVec 4) (cnt : BitVec 5) (data : BitVec 16) : Word := op ++ 0#7 ++ cnt ++ data

/-- Format D (R57). -/
def encodeD (op : BitVec 4) (d : BitVec 28) : Word := op ++ d

/-- The opcode of a command (R63). -/
def Instr.opcode : Instr → BitVec 4
  | .nop => 0x0#4
  | .clear => 0x1#4
  | .setcolor _ _ _ => 0x2#4
  | .maskclr => 0x3#4
  | .maskpush _ _ => 0x4#4
  | .composite => 0x5#4
  | .serp => 0x6#4
  | .glyph2 _ => 0x7#4
  | .glyph4 _ => 0x8#4
  | .glyph8 _ => 0x9#4
  | .emit => 0xA#4
  | .fill _ _ _ => 0xB#4
  | .clrstat => 0xC#4

/-- The word of a command (R57, R63, R70). -/
def encode : Instr → Word
  | .nop => encodeZ 0x0#4
  | .clear => encodeZ 0x1#4
  | .setcolor r g b => encodeC 0x2#4 r g b
  | .maskclr => encodeZ 0x3#4
  | .maskpush cnt data => encodeM 0x4#4 cnt data
  | .composite => encodeZ 0x5#4
  | .serp => encodeZ 0x6#4
  | .glyph2 d => encodeD 0x7#4 d
  | .glyph4 d => encodeD 0x8#4 d
  | .glyph8 d => encodeD 0x9#4 d
  | .emit => encodeZ 0xA#4
  | .fill r g b => encodeC 0xB#4 r g b
  | .clrstat => encodeZ 0xC#4

/-! ### The opcode map as rows of a mask and a pattern -/

/-- One row of the opcode map: the fixed bits of its words (R63). -/
structure OpcodeRow where
  mnemonic : String
  mask : Word
  pattern : Word
deriving DecidableEq, Repr

/-- The opcode map (R63). -/
def opcodeRows : List OpcodeRow :=
  [⟨"NOP", 0xFFFFFFFF#32, 0x00000000#32⟩,
   ⟨"CLEAR", 0xFFFFFFFF#32, 0x10000000#32⟩,
   ⟨"SETCOLOR", 0xFF000000#32, 0x20000000#32⟩,
   ⟨"MASKCLR", 0xFFFFFFFF#32, 0x30000000#32⟩,
   ⟨"MASKPUSH", 0xFFE00000#32, 0x40000000#32⟩,
   ⟨"COMPOSITE", 0xFFFFFFFF#32, 0x50000000#32⟩,
   ⟨"SERP", 0xFFFFFFFF#32, 0x60000000#32⟩,
   ⟨"GLYPH2", 0xF0000000#32, 0x70000000#32⟩,
   ⟨"GLYPH4", 0xF0000000#32, 0x80000000#32⟩,
   ⟨"GLYPH8", 0xF0000000#32, 0x90000000#32⟩,
   ⟨"EMIT", 0xFFFFFFFF#32, 0xA0000000#32⟩,
   ⟨"FILL", 0xFF000000#32, 0xB0000000#32⟩,
   ⟨"CLRSTAT", 0xFFFFFFFF#32, 0xC0000000#32⟩]

/-- The word has the row's fixed bits. -/
def OpcodeRow.admits (row : OpcodeRow) (w : Word) : Bool := w &&& row.mask == row.pattern

/-- A command's mnemonic (R63). -/
def Instr.mnemonic : Instr → String
  | .nop => "NOP"
  | .clear => "CLEAR"
  | .setcolor _ _ _ => "SETCOLOR"
  | .maskclr => "MASKCLR"
  | .maskpush _ _ => "MASKPUSH"
  | .composite => "COMPOSITE"
  | .serp => "SERP"
  | .glyph2 _ => "GLYPH2"
  | .glyph4 _ => "GLYPH4"
  | .glyph8 _ => "GLYPH8"
  | .emit => "EMIT"
  | .fill _ _ _ => "FILL"
  | .clrstat => "CLRSTAT"

end Sys2Proof
end

