-- ==== Sys2Proof/Config.lean ====
section
/-! DEFINITION. What an implementation fixes (00_scope.md R9 to R14) and the free values of the model. -/

namespace Sys2Proof

/-- Which row of a row pair the serpentine swap starts at (R13). -/
inductive SerpBase where
  | even
  | odd
deriving DecidableEq, Repr

/-- How the 8-digit mask joins its two halves (R14). -/
inductive Glyph8Layout where
  | flat
  | rowwise
deriving DecidableEq, Repr

/-- The configuration and the parameters of one block (R9 to R14, R22). W and H are the 16-bit configuration
registers; NMAX and MMAX are at most 2^32 − 1 (R32, R141), which their width says. -/
structure Params where
  w : BitVec 16
  h : BitVec 16
  nmax : BitVec 32
  mmax : BitVec 32
  rom : GlyphRom
  serpBase : SerpBase
  glyph8Layout : Glyph8Layout
deriving DecidableEq, Repr

namespace Config

/-- The glyph bits, which no source gives: a parameter with no default value (R12, R96). No body, so no proof can
see a bit of it (log 3). -/
opaque glyphRom : GlyphRom

/-- The free mask bits of the RANGE path (R102, R104, R106, R126 "Draw"): bit j of the mask of `len` bits that the
`draw`-th draw gives for the operand d. No body: any mask is possible (log 6). -/
opaque freeMaskBit (draw len : Nat) (d : BitVec 28) (j : Nat) : Bool

/-- The launch that `State.reset` stands for. SERP_BASE and GLYPH8_LAYOUT are the values the spec takes (R13, R14).
DESIGN CHOICE: W = 3, H = 4, NMAX = MMAX = 4096, the one launch that 95_test_vectors.md writes out in full (log 2).
Every statement of the model is over all parameters. -/
def launch : Params where
  w := 3#16
  h := 4#16
  nmax := 4096#32
  mmax := 4096#32
  rom := glyphRom
  serpBase := .even
  glyph8Layout := .flat

end Config

end Sys2Proof
end

