-- ==== Sys2Proof/Machine/State.lean ====
section
/-! DEFINITION. Everything the spec gives the block (10_state.md), as plain data, and the state after reset
(70_reset_and_hazards.md R138). -/

namespace Sys2Proof.Machine

/-- What the host does to the block, in its order (R15, R33, R49, R138, R140). The stream is unbounded and no queue of
the block: a command is accepted only after the one before it has completed (R36, R38; log 1). -/
inductive Input where
  /-- A command word on the command port (R21, R56). -/
  | command (w : Word)
  /-- A read at an 8-bit index of the register read port (R33, R38; log 7). -/
  | read (i : BitVec 8)
  /-- A reset, with the values of the configuration inputs W and H that it samples (R138, R139; log 8). -/
  | reset (w h : BitVec 16)
deriving DecidableEq, Repr

/-- The state of the block and of its ports. -/
structure State where
  /-- The configuration W and H, and the parameters, GLYPH_ROM among them (R9 to R14, R22, R30; log 4). -/
  params : Params
  /-- COLOR: R in 23:16, G in 15:8, B in 7:0 (R23). -/
  color : BitVec 24
  /-- MASK, a list of bits; MLEN is its length (R24). -/
  mask : List Bool
  /-- FB, one cell for each pixel index (R26). A cell is `none` exactly where FBW is false: the pixel's value is then
  unspecified (R28; log 5). -/
  fb : List (Option Pixel)
  /-- STATUS: ILL is bit 0, RANGE is bit 1 (R29). -/
  status : BitVec 32
  /-- OUT, every frame emitted since reset, oldest first (R31). -/
  out : List Frame
  /-- k, the count of commands completed since reset (R21). -/
  k : Nat
  /-- What the host has still to do, first one first (log 1). -/
  inbox : List Input
  /-- The model's own: the register read port's answers since reset, oldest first (R33; log 7). -/
  replies : List (BitVec 8 × Word)
  /-- The model's own: how many free masks have been drawn (R126 "Draw"; log 6). -/
  draws : Nat
deriving DecidableEq, Repr

/-- How a run can stop on a model fault (R126). -/
inductive Fault where
  /-- UNINIT_READ(p): raised by EMIT at the lowest pixel p that no command has written since reset (R28, R109, R130).
  The hardware goes on and emits unspecified bytes. Safe: the model stops where the hardware goes on. -/
  | uninitRead (p : Nat)
deriving DecidableEq, Repr

/-- What the model declines (R126). -/
inductive Refusal where
  /-- A command without a meaning yet, by its mnemonic: raised by no arm of `exec` any more. Safe: nothing is
  claimed of such a command. -/
  | notModelled (mnemonic : String)
  /-- INVALID_CONFIG: raised by a launch or a reset whose parameters or configuration break a constraint of R141.
  Safe: nothing is claimed of such a block. -/
  | invalidConfig
deriving DecidableEq, Repr

/-- The state right after reset of a block with the parameters p (R138): nothing written, no error, no output. The
pixels' values are unspecified (R28). -/
def State.fresh (p : Params) : State where
  params := p
  color := 0#24
  mask := []
  fb := List.replicate (p.w.toNat * p.h.toNat) none
  status := 0#32
  out := []
  k := 0
  inbox := []
  replies := []
  draws := 0

/-- The machine right after reset, for the launch that `Config.launch` names (R138; log 2, log 3, log 4). -/
def State.reset : State := State.fresh Config.launch

end Sys2Proof.Machine
end

