-- ==== Sys2Proof/Machine/Flags.lean ====
section
/-! DEFINITION. STATUS and its two sticky flags (10_state.md R29, 60_exceptions.md R123). -/

namespace Sys2Proof.Machine

/-- The block's two error conditions (R123). -/
inductive Condition where
  /-- An illegal command word (R120). -/
  | ill
  /-- A digit operand outside its supported range (R124). -/
  | range
deriving DecidableEq, Repr

/-- "Each has a code equal to its STATUS bit number" (R123). -/
def Condition.code : Condition → Nat
  | .ill => 0
  | .range => 1

/-- STATUS with the condition's flag set; the other flag keeps its value (R131). -/
def statusWith (status : BitVec 32) (c : Condition) : BitVec 32 := status ||| (1#32 <<< c.code)

/-- STATUS with both flags 0, as CLRSTAT leaves it (R118). -/
def statusCleared (status : BitVec 32) : BitVec 32 := status &&& ~~~3#32

/-- What the read port shows of STATUS: bits 31:2 read as 0 (R29; log 17). -/
def statusShown (status : BitVec 32) : BitVec 32 := status &&& 3#32

/-- A condition's flag in STATUS (R29). -/
def State.flag (s : State) (c : Condition) : Bool := s.status.getLsbD c.code

/-- STATUS.ILL (R29). -/
def State.ill (s : State) : Bool := s.flag .ill

/-- STATUS.RANGE (R29). -/
def State.range (s : State) : Bool := s.flag .range

end Sys2Proof.Machine
end

