-- ==== Sys2Proof/Machine/Operands.lean ====
section
/-! DEFINITION. The operand forms (30_encoding.md R59 to R62): every operand is an unsigned immediate, used as it is
encoded. -/

namespace Sys2Proof.Machine

/-- The colour r, g, b in the layout of COLOR: R in 23:16, G in 15:8, B in 7:0 (R44, R59, R85). -/
def packColor (r g b : Byte) : BitVec 24 := r ++ g ++ b

/-- COLOR as a pixel; no channel is reordered (R44, R92). -/
def colorPixel (c : BitVec 24) : Pixel where
  r := c.extractLsb' 16 8
  g := c.extractLsb' 8 8
  b := c.extractLsb' 0 8

/-- A pixel's bytes on the output port, in the order r, g, b (R42). -/
def pixelBytes (px : Pixel) : List Byte := [px.r, px.g, px.b]

/-- The black pixel (0, 0, 0) that CLEAR writes (R83). -/
def black : Pixel where
  r := 0#8
  g := 0#8
  b := 0#8

/-- The bits MASKPUSH pushes, the first one DATA[0]; DATA bits CNT..15 are ignored (R60, R62, R89). -/
def pushedBits (cnt : BitVec 5) (data : BitVec 16) : List Bool :=
  (List.range cnt.toNat).map fun j => data.getLsbD j

/-- A digit operand: an unsigned integer, never reduced (R61, R62). -/
def digitOperand (d : BitVec 28) : Nat := d.toNat

end Sys2Proof.Machine
end

