-- ==== Sys2Proof/Machine/Ops.lean ====
section
/-! DEFINITION. The named operations over the block's state that the commands share, raising an error condition among
them, and the register read port and reset. -/

namespace Sys2Proof

/-- N = W·H, the pixel count (R9, R22). -/
def Params.npix (p : Params) : Nat := p.w.toNat * p.h.toNat

/-- The launch constraints (R141). The upper bounds of W, H, NMAX and MMAX, and the ROM's 80 words of 4 bits, are the
widths and lengths of their types. -/
abbrev Params.Valid (p : Params) : Prop :=
  1 ≤ p.w.toNat ∧ 1 ≤ p.h.toNat ∧ p.npix ≤ p.nmax.toNat ∧ p.nmax.toNat ≤ p.mmax.toNat ∧ 256 ≤ p.mmax.toNat

namespace Machine

/-! ### Reading the state -/

/-- N of the configured grid (R22). -/
def State.npix (s : State) : Nat := s.params.npix

/-- MLEN (R24). -/
def State.mlen (s : State) : Nat := s.mask.length

/-- The one bounds-checked accessor over a mask: 0 past its end (R25). -/
def maskBit (mask : List Bool) (p : Nat) : Bool := mask.getD p false

/-- MaskBit(p) of the loaded mask (R25). -/
def State.maskBit (s : State) (p : Nat) : Bool := Machine.maskBit s.mask p

/-- FB[p]: its value where FBW[p] is true, no value where it is false or where p is no pixel (R26, R28). -/
def State.readPixel (s : State) (p : Nat) : Option Pixel := (s.fb[p]?).join

/-- FBW[p], "written since reset" (R28). -/
def State.fbw (s : State) (p : Nat) : Bool := (s.readPixel p).isSome

/-- The frame buffer has its N cells and the mask fits its capacity (R24, R26): the one form of the block's storage. -/
abbrev Memory.wf (s : State) : Prop := s.fb.length = s.npix ∧ s.mask.length ≤ s.params.mmax.toNat

/-! ### Writing one element of the state -/

/-- COLOR <- c (R23). -/
def State.setColor (s : State) (c : BitVec 24) : State := { s with color := c }

/-- MASK <- m, written as a whole (R18). -/
def State.setMask (s : State) (m : List Bool) : State := { s with mask := m }

/-- FB <- fb. -/
def State.setFb (s : State) (fb : List (Option Pixel)) : State := { s with fb := fb }

/-- STATUS <- v. -/
def State.setStatus (s : State) (v : BitVec 32) : State := { s with status := v }

/-- Emit(frame): appends one whole frame to the output port (R18, R111). -/
def State.emitFrame (s : State) (f : Frame) : State := { s with out := s.out ++ [f] }

/-- A command has completed: k goes up by exactly 1 (R21). -/
def State.complete (s : State) : State := { s with k := s.k + 1 }

/-- What the host has still to do. -/
def State.setInbox (s : State) (l : List Input) : State := { s with inbox := l }

/-- The read port answers v at index i (R33). -/
def State.reply (s : State) (i : BitVec 8) (v : Word) : State := { s with replies := s.replies ++ [(i, v)] }

/-! ### Error conditions: the block's only exceptions -/

/-- Raising a condition: exactly the flag write, with no trap, no saved state and no change of mode (R123, R124,
R127, R131). There is no return from it: a flag stays until CLRSTAT or reset (R29, R131). -/
def State.raise (s : State) (c : Condition) : State := s.setStatus (statusWith s.status c)

/-- STATUS.ILL <- 0 and STATUS.RANGE <- 0 (R118). -/
def State.clearFlags (s : State) : State := s.setStatus (statusCleared s.status)

/-- ILLEGAL(word): STATUS.ILL <- 1, counted in k, and nothing else (R120). -/
def State.illegalWord (s : State) : State := (s.raise .ill).complete

/-- MASK <- any list of len bits, on the RANGE path of a digit command: a fresh free value each time (R102, R104,
R106, R124; log 6). -/
def State.drawMask (s : State) (len : Nat) (d : BitVec 28) : State :=
  { s with
    mask := (List.range len).map (Config.freeMaskBit s.draws len d)
    draws := s.draws + 1 }

/-! ### The mask -/

/-- One pushed bit; it is dropped where the mask is full (R89, R90). -/
def pushBit (cap : Nat) (mask : List Bool) (b : Bool) : List Bool :=
  if mask.length < cap then mask ++ [b] else mask

/-- The pushes of one MASKPUSH, in order (R89). -/
def pushBits (cap : Nat) (mask bits : List Bool) : List Bool := bits.foldl (pushBit cap) mask

/-! ### The frame buffer -/

/-- Every pixel p < N written with the same value (R83). -/
def clearedCells (n : Nat) : List (Option Pixel) := List.replicate n (some black)

/-- Pixels p < n with MaskBit(p) = 1 take the colour c; every other cell keeps its own (R92). -/
def paintCells (n : Nat) (mask : List Bool) (c : Pixel) (fb : List (Option Pixel)) : List (Option Pixel) :=
  fb.mapIdx fun p cell => if decide (p < n) && maskBit mask p then some c else cell

/-- The bytes of `count` pixels from index p on, in ascending order, or the first index that holds no written pixel
(R109). -/
def serializeFrom (read : Nat → Option Pixel) (p : Nat) : (count : Nat) → Except Nat Frame
  | 0 => .ok []
  | count + 1 =>
    match read p with
    | none => .error p
    | some px =>
      match serializeFrom read (p + 1) count with
      | .error q => .error q
      | .ok f => .ok (pixelBytes px ++ f)

/-- The frame of FB, or the lowest pixel not written since reset (R109, R130). -/
def State.serialize (s : State) : Except Nat Frame := serializeFrom s.readPixel 0 s.npix

/-- n repetitions of one pixel's bytes (R113). -/
def uniformFrame (n : Nat) (px : Pixel) : Frame := (List.replicate n (pixelBytes px)).flatten

/-! ### The register read port -/

/-- The value at an index of the register read map; reserved indices read 0 (R32, R33, R55). -/
def State.readReg (s : State) (i : BitVec 8) : Word :=
  match i.toNat with
  | 0x0 => statusShown s.status
  | 0x1 => s.params.h ++ s.params.w
  | 0x2 => BitVec.ofNat 32 s.npix
  | 0x3 => 0#8 ++ s.color
  | 0x4 => BitVec.ofNat 32 s.mlen
  | 0x5 => s.params.nmax
  | 0x6 => s.params.mmax
  | _ => 0#32

/-! ### Launch and reset -/

/-- A launch with the parameters p: refused where a constraint of R141 fails, else the state after reset (R126, R138). -/
def launch (p : Params) : Host.Outcome State Fault Refusal :=
  if p.Valid then .next (State.fresh p) else .refused .invalidConfig

/-- The parameters with the configuration inputs sampled; the others are fixed for the block's whole life (R139). -/
def sampledParams (p : Params) (w h : BitVec 16) : Params := { p with w := w, h := h }

/-- The state a reset leaves: every element at its reset value; what the host does next and the draws already made are
no part of the block and stay (R138; log 6, log 8). -/
def State.restarted (s : State) (p : Params) : State :=
  { State.fresh p with
    inbox := s.inbox
    draws := s.draws }

/-- A reset that samples W and H (R138, R139), refused as a launch is (R141). -/
def resetBlock (w h : BitVec 16) (s : State) : Host.Outcome State Fault Refusal :=
  match launch (sampledParams s.params w h) with
  | .next t => .next (s.restarted t.params)
  | .fault f => .fault f
  | .refused r => .refused r

end Machine

end Sys2Proof
end

