-- ==== Sys2Proof/Machine/Compositor.lean ====
section
/-! DEFINITION. The Frame Compositor (41_compositor.md): CLEAR, SETCOLOR, MASKCLR, MASKPUSH, COMPOSITE. -/

namespace Sys2Proof.Machine

/-- CLEAR: every pixel of FB becomes (0,0,0) and written (R83). -/
def execClear (s : State) : Host.Outcome State Fault Refusal :=
  .next (s.setFb (clearedCells s.npix)).complete

/-- SETCOLOR: loads the layer colour (R85). -/
def execSetcolor (r g b : Byte) (s : State) : Host.Outcome State Fault Refusal :=
  .next (s.setColor (packColor r g b)).complete

/-- MASKCLR: empties the mask (R87). -/
def execMaskclr (s : State) : Host.Outcome State Fault Refusal :=
  .next (s.setMask []).complete

/-- MASKPUSH: appends cnt mask bits, those past MMAX dropped without a flag (R89, R90). -/
def execMaskpush (cnt : BitVec 5) (data : BitVec 16) (s : State) : Host.Outcome State Fault Refusal :=
  .next (s.setMask (pushBits s.params.mmax.toNat s.mask (pushedBits cnt data))).complete

/-- COMPOSITE: paints the current layer onto FB, last writer wins (R91, R92). -/
def execComposite (s : State) : Host.Outcome State Fault Refusal :=
  .next (s.setFb (paintCells s.npix s.mask (colorPixel s.color) s.fb)).complete

end Sys2Proof.Machine
end

