-- ==== Sys2Proof/Machine/Control.lean ====
section
/-! DEFINITION. Control commands (44_control.md): NOP, CLRSTAT. What an illegal word does is `State.illegalWord`. -/

namespace Sys2Proof.Machine

/-- NOP: no effect but the count k (R117). -/
def execNop (s : State) : Host.Outcome State Fault Refusal := .next s.complete

/-- CLRSTAT: clears both status flags (R118). -/
def execClrstat (s : State) : Host.Outcome State Fault Refusal := .next s.clearFlags.complete

end Sys2Proof.Machine
end

