-- ==== Sys2Proof/Machine/Font.lean ====
section
/-! DEFINITION. The Digit Font (42_font.md): GLYPH2, GLYPH4, GLYPH8. -/

namespace Sys2Proof.Machine

/-- The row word of digit d and row r (R41). The digit commands read only digits 0..9 and rows 0..7 (R99); elsewhere
there is no word, and 0 stands for it (log 14). -/
def romRow (rom : GlyphRom) (d r : Nat) : RowWord :=
  match rom[d]? with
  | some glyph => glyph[r]?.getD 0#4
  | none => 0#4

/-- G(d, r, c): column c, 0 leftmost, is bit 3 − c of the row word (R97). -/
def glyphBit (rom : GlyphRom) (d r c : Nat) : Bool := (romRow rom d r).getLsbD (3 - c)

/-- The four columns of one glyph row, left to right (R97). -/
def glyphRow (rom : GlyphRom) (d r : Nat) : List Bool := (List.range 4).map (glyphBit rom d r)

/-- Digits side by side, row-major: eight rows, each the glyph rows of the digits from left to right (R100, R103). -/
def renderDigits (rom : GlyphRom) (digits : List Nat) : List Bool :=
  (List.range 8).flatMap fun r => digits.flatMap fun d => glyphRow rom d r

/-- hi and lo of 0 ≤ d ≤ 99 (R99). -/
def digits2 (d : Nat) : List Nat := [d / 10, d % 10]

/-- p3, p2, p1, p0 of 0 ≤ d ≤ 9999 (R99, R103). -/
def digits4 (d : Nat) : List Nat := [d / 1000, d / 100 % 10, d / 10 % 10, d % 10]

/-- The 64-bit render of two digits (R100). -/
def render2 (rom : GlyphRom) (d : Nat) : List Bool := renderDigits rom (digits2 d)

/-- Render4: the 128-bit render of four digits (R103). -/
def render4 (rom : GlyphRom) (d : Nat) : List Bool := renderDigits rom (digits4 d)

/-- Joining the high half a and the low half b: end to end, or row by row of 16 (R106). -/
def joinHalves (layout : Glyph8Layout) (a b : List Bool) : List Bool :=
  match layout with
  | .flat => a ++ b
  | .rowwise => (List.range 8).flatMap fun r => (a.drop (16 * r)).take 16 ++ (b.drop (16 * r)).take 16

/-- The 256-bit render of eight digits (R105, R106). -/
def render8 (rom : GlyphRom) (layout : Glyph8Layout) (d : Nat) : List Bool :=
  joinHalves layout (render4 rom (d / 10000)) (render4 rom (d % 10000))

/-- A digit command: MASK becomes the render of an operand up to `max`; above it RANGE is raised and MASK gets `len`
free bits (R124). The mask before it is discarded (R147). -/
def loadDigits (max len : Nat) (render : Nat → List Bool) (d : BitVec 28) (s : State) :
    Host.Outcome State Fault Refusal :=
  if max < digitOperand d then .next ((s.raise .range).drawMask len d).complete
  else .next (s.setMask (render (digitOperand d))).complete

/-- GLYPH2: the 2-digit render of d ≤ 99 (R100, R102). -/
def execGlyph2 (d : BitVec 28) (s : State) : Host.Outcome State Fault Refusal :=
  loadDigits 99 64 (render2 s.params.rom) d s

/-- GLYPH4: the 4-digit render of d ≤ 9999 (R103, R104). -/
def execGlyph4 (d : BitVec 28) (s : State) : Host.Outcome State Fault Refusal :=
  loadDigits 9999 128 (render4 s.params.rom) d s

/-- GLYPH8: the 8-digit render of d ≤ 99999999 (R105, R106). -/
def execGlyph8 (d : BitVec 28) (s : State) : Host.Outcome State Fault Refusal :=
  loadDigits 99999999 256 (render8 s.params.rom s.params.glyph8Layout) d s

end Sys2Proof.Machine
end

