-- ==== Sys2Proof/Machine/Geometry.lean ====
section
/-! DEFINITION. The Geometry Mapper (40_geometry.md): SERP. -/

namespace Sys2Proof.Machine

/-- The row-pair starts 0, 2W, 4W, … below N, the trailing partial pair among them (R76). DEDUCED: the loop
`s = 0; while s < N: …; s = s + 2W` visits exactly ⌈N / 2W⌉ starts (log 19). -/
def pairStarts (n w : Nat) : List Nat := (List.range ((n + 2 * w - 1) / (2 * w))).map fun j => 2 * w * j

/-- The base offset inside a row pair (R76). -/
def serpOffset (base : SerpBase) (w : Nat) : Nat :=
  match base with
  | .even => 0
  | .odd => w

/-- The pairs (a, b) of one span of h entries, i ascending (R76, R77). -/
def spanSwaps (h base : Nat) : List (Nat × Nat) :=
  (List.range (h / 2)).map fun i => (base + i, base + h - 1 - i)

/-- All swaps of one SERP in order: s ascending, then i ascending (R77). -/
def serpSwaps (p : Params) : List (Nat × Nat) :=
  (pairStarts p.npix p.w.toNat).flatMap fun s => spanSwaps p.h.toNat (s + serpOffset p.serpBase p.w.toNat)

/-- One swap, skipped without error where an offset is outside 0..n−1 (R76). -/
def swapCells {α : Type} (n : Nat) (l : List α) (ab : Nat × Nat) : List α :=
  if ab.1 < n ∧ ab.2 < n then
    match l[ab.1]?, l[ab.2]? with
    | some x, some y => (l.set ab.1 y).set ab.2 x
    | some _, none => l
    | none, _ => l
  else l

/-- The permutation SERP applies; each swap sees the result of the ones before it (R77). -/
def serpCells {α : Type} (p : Params) (l : List α) : List α := (serpSwaps p).foldl (swapCells p.npix) l

/-- SERP: the Geometry Mapper on FB in place; a cell moves whole, with its FBW (R75, R76). -/
def execSerp (s : State) : Host.Outcome State Fault Refusal :=
  .next (s.setFb (serpCells s.params s.fb)).complete

end Sys2Proof.Machine
end

