-- ==== Sys2Proof/Machine/Output.lean ====
section
/-! DEFINITION. Frame output (43_output.md): EMIT, FILL. -/

namespace Sys2Proof.Machine

/-- EMIT: appends FB's 3N bytes as one frame, in whatever order FB is in; the model faults at the lowest pixel no
command has written (R109, R112, R126, R130). -/
def execEmit (s : State) : Host.Outcome State Fault Refusal :=
  match s.serialize with
  | .ok f => .next (s.emitFrame f).complete
  | .error p => .fault (.uninitRead p)

/-- FILL: appends a uniform frame of 3N bytes; it reads neither FB nor COLOR (R113, R114). -/
def execFill (r g b : Byte) (s : State) : Host.Outcome State Fault Refusal :=
  .next (s.emitFrame (uniformFrame s.npix { r := r, g := g, b := b })).complete

end Sys2Proof.Machine
end

