-- ==== Sys2Proof/Machine/Dispatch.lean ====
section
/-! DEFINITION. Which meaning each command has: one arm per row of opcode_table.json. -/

namespace Sys2Proof.Machine

def exec (i : Instr) (s : State) : Host.Outcome State Fault Refusal :=
  match i with
  | .nop => Sys2Proof.Machine.execNop s
  | .clear => Sys2Proof.Machine.execClear s
  | .setcolor r g b => Sys2Proof.Machine.execSetcolor r g b s
  | .maskclr => Sys2Proof.Machine.execMaskclr s
  | .maskpush cnt data => Sys2Proof.Machine.execMaskpush cnt data s
  | .composite => Sys2Proof.Machine.execComposite s
  | .serp => Sys2Proof.Machine.execSerp s
  | .glyph2 d => Sys2Proof.Machine.execGlyph2 d s
  | .glyph4 d => Sys2Proof.Machine.execGlyph4 d s
  | .glyph8 d => Sys2Proof.Machine.execGlyph8 d s
  | .emit => Sys2Proof.Machine.execEmit s
  | .fill r g b => Sys2Proof.Machine.execFill r g b s
  | .clrstat => Sys2Proof.Machine.execClrstat s

end Sys2Proof.Machine
end

