-- ==== Sys2Proof/Machine/Ports.lean ====
section
/-! DEFINITION. What the block does with each input of the host: a command word, a register read, a reset. -/

namespace Sys2Proof.Machine

/-- A command word: the decoded command's rule, or what an illegal word does. Decoding comes first, so an illegal word
runs no command (R64, R120, R130). -/
def runWord (w : Word) (s : State) : Host.Outcome State Fault Refusal :=
  match decode w with
  | .command i => exec i s
  | .illegal _ => .next s.illegalWord

/-- A register read: the port answers, and the block does not change (R33, R47). -/
def serveRead (i : BitVec 8) (s : State) : Host.Outcome State Fault Refusal :=
  .next (s.reply i (s.readReg i))

/-- One input of the host (R49, R50). -/
def serve (x : Input) (s : State) : Host.Outcome State Fault Refusal :=
  match x with
  | .command w => runWord w s
  | .read i => serveRead i s
  | .reset w h => resetBlock w h s

/-- The block takes the host's first input, if there is one; with none it waits and holds all state unchanged
(R21, R137, R140). -/
def takeInput (s : State) : Host.Outcome State Fault Refusal :=
  match s.inbox with
  | [] => .next s
  | x :: rest => serve x (s.setInbox rest)

/-- The host's next input is this word (log 1). -/
def State.issue (s : State) (w : Word) : State := s.setInbox (.command w :: s.inbox)

/-! ### Runs of commands -/

/-- Going on from a next state; a fault or a refusal ends the run (R126). -/
def andThen (o : Host.Outcome State Fault Refusal) (f : State → Host.Outcome State Fault Refusal) :
    Host.Outcome State Fault Refusal :=
  match o with
  | .next s => f s
  | .fault r => .fault r
  | .refused r => .refused r

/-- Commands one after another, each starting from what the one before it left (R49). -/
def execAll : List Instr → State → Host.Outcome State Fault Refusal
  | [], s => .next s
  | i :: rest, s => andThen (exec i s) (execAll rest)

/-- A program's words one after another (R74, R128). -/
def runWords : List Word → State → Host.Outcome State Fault Refusal
  | [], s => .next s
  | w :: rest, s => andThen (runWord w s) (runWords rest)

end Sys2Proof.Machine
end

