-- ==== Sys2Proof/Machine/Step.lean ====
section
/-! DEFINITION. One step of the block (20_memory.md R49), and placing the word that the next step runs. -/

namespace Sys2Proof.Machine

/-- One input of the host taken and completed, atomically (R49). -/
def step (s : State) : Host.Outcome State Fault Refusal := takeInput s

/-- The state in which the very next step runs this word: the host issues it first (log 1). -/
def State.withFetchWord (s : State) (nbits w : Nat) : State := s.issue (tableWord nbits w)

end Sys2Proof.Machine
end

