-- ==== Sys2Proof/Machine/Assembler.lean ====
section
/-! DEFINITION. The assembler, its pseudo-instructions and the host driver's channel conversion (30_encoding.md R70 to
R74): the tools around the block, no part of a step. -/

namespace Sys2Proof.Machine

/-! ### Pseudo-instructions -/

/-- A layer as the host has it: the mask's bits and the colour (R19 "Layer", R72 LAYER). -/
structure Layer where
  bits : List Bool
  r : Byte
  g : Byte
  b : Byte
deriving DecidableEq, Repr

/-- v = Σ b(j)·2^j (R72). -/
def bitsValue : List Bool → Nat
  | [] => 0
  | b :: rest => b.toNat + 2 * bitsValue rest

/-- The bits 16k .. min(16k + 15, n − 1) of a mask (R72). -/
def maskChunk (bits : List Bool) (k : Nat) : List Bool := (bits.drop (16 * k)).take 16

/-- `MASKPUSH c, v` for one chunk of up to 16 bits (R72). -/
def pushChunk (chunk : List Bool) : Instr :=
  .maskpush (BitVec.ofNat 5 chunk.length) (BitVec.ofNat 16 (bitsValue chunk))

/-- `MASK b0, …, b(n−1)` (R72). -/
def expandMask (bits : List Bool) : List Instr :=
  .maskclr :: (List.range ((bits.length + 15) / 16)).map fun k => pushChunk (maskChunk bits k)

/-- `LAYER (b0, …, b(n−1)), r, g, b` (R72). -/
def expandLayer (l : Layer) : List Instr :=
  expandMask l.bits ++ [.setcolor l.r l.g l.b, .composite]

/-- The Frame Compositor of R94 on a list of layers: SENDFRAME without its EMIT. -/
def expandCompose (layers : List Layer) : List Instr :=
  .clear :: layers.flatMap expandLayer ++ [.serp]

/-- `SENDFRAME L1; …; Lm` (R72, R143). -/
def expandSendFrame (layers : List Layer) : List Instr := expandCompose layers ++ [.emit]

/-- `COUNTER2 d, r, g, b` (R72). -/
def expandCounter2 (d : Nat) (r g b : Byte) : List Instr :=
  [.clear, .glyph2 (BitVec.ofNat 28 (d % 100)), .setcolor r g b, .composite, .serp, .emit]

/-- `COUNTER4 d, r, g, b` (R72). -/
def expandCounter4 (d : Nat) (r g b : Byte) : List Instr :=
  [.clear, .glyph4 (BitVec.ofNat 28 (d % 10000)), .setcolor r g b, .composite, .serp, .emit]

/-- `COUNTER8 d, r, g, b` (R72). -/
def expandCounter8 (d : Nat) (r g b : Byte) : List Instr :=
  [.clear, .glyph8 (BitVec.ofNat 28 (d % 100000000)), .setcolor r g b, .composite, .serp, .emit]

/-- A host driver's conversion of an unbounded channel value: v mod 256 (R71). -/
def hostChannel (v : Nat) : Byte := BitVec.ofNat 8 v

/-! ### Mnemonics and operand ranges -/

/-- The names a line of assembly may begin with: the thirteen mnemonics (R70), and the pseudo-instructions of R72
whose operands are a plain list of numbers (log 15). -/
inductive AsmName where
  | nop
  | clear
  | setcolor
  | maskclr
  | maskpush
  | composite
  | serp
  | glyph2
  | glyph4
  | glyph8
  | emit
  | fill
  | clrstat
  | mask
  | counter2
  | counter4
  | counter8
deriving DecidableEq, Repr

/-- The spelling of each name (R70, R72). -/
def asmNames : List (List Char × AsmName) :=
  [(['N', 'O', 'P'], .nop),
   (['C', 'L', 'E', 'A', 'R'], .clear),
   (['S', 'E', 'T', 'C', 'O', 'L', 'O', 'R'], .setcolor),
   (['M', 'A', 'S', 'K', 'C', 'L', 'R'], .maskclr),
   (['M', 'A', 'S', 'K', 'P', 'U', 'S', 'H'], .maskpush),
   (['C', 'O', 'M', 'P', 'O', 'S', 'I', 'T', 'E'], .composite),
   (['S', 'E', 'R', 'P'], .serp),
   (['G', 'L', 'Y', 'P', 'H', '2'], .glyph2),
   (['G', 'L', 'Y', 'P', 'H', '4'], .glyph4),
   (['G', 'L', 'Y', 'P', 'H', '8'], .glyph8),
   (['E', 'M', 'I', 'T'], .emit),
   (['F', 'I', 'L', 'L'], .fill),
   (['C', 'L', 'R', 'S', 'T', 'A', 'T'], .clrstat)] ++
  [(['M', 'A', 'S', 'K'], .mask),
   (['C', 'O', 'U', 'N', 'T', 'E', 'R', '2'], .counter2),
   (['C', 'O', 'U', 'N', 'T', 'E', 'R', '4'], .counter4),
   (['C', 'O', 'U', 'N', 'T', 'E', 'R', '8'], .counter8)]

/-- A channel operand, in 0..255; any other value is refused (R71). -/
def asmChannel (v : Nat) : Option Byte := if v ≤ 255 then some (BitVec.ofNat 8 v) else none

/-- A digit operand, in 0..268435455; the command's own range is not checked (R71). -/
def asmDigits (v : Nat) : Option (BitVec 28) := if v ≤ 268435455 then some (BitVec.ofNat 28 v) else none

/-- Three channel operands (R71). -/
def asmColor (mk : Byte → Byte → Byte → Instr) (r g b : Nat) : Option Instr :=
  match asmChannel r, asmChannel g, asmChannel b with
  | some r, some g, some b => some (mk r g b)
  | some _, some _, none => none
  | some _, none, _ => none
  | none, _, _ => none

/-- The low cnt bits of MASKPUSH's data, zero elsewhere: the canonical encoding (R73). -/
def canonicalData (cnt data : Nat) : Nat := data % 2 ^ cnt

/-- MASKPUSH cnt, data: cnt in 1..16 and data in 0..0xFFFF (R71), written canonically (R73). -/
def asmPush (cnt data : Nat) : Option Instr :=
  if 1 ≤ cnt ∧ cnt ≤ 16 ∧ data ≤ 0xFFFF then
    some (.maskpush (BitVec.ofNat 5 cnt) (BitVec.ofNat 16 (canonicalData cnt data)))
  else none

/-- A mask bit operand, 0 or 1 (R72). -/
def asmBit (v : Nat) : Option Bool := if v = 0 then some false else if v = 1 then some true else none

/-- The commands of one COUNTER line (R72); its colour is a channel operand (R71). -/
def asmCounter (expand : Nat → Byte → Byte → Byte → List Instr) (d r g b : Nat) : Option (List Instr) :=
  match asmChannel r, asmChannel g, asmChannel b with
  | some r, some g, some b => some (expand d r g b)
  | some _, some _, none => none
  | some _, none, _ => none
  | none, _, _ => none

/-- A command without operands (R70). -/
def asmPlain (i : Instr) (ops : List Nat) : Option (List Instr) := if ops = [] then some [i] else none

/-- The commands of one line, or a refusal where the operands are not what its name takes (R70, R71, R72). -/
def assembleLine (name : AsmName) (ops : List Nat) : Option (List Instr) :=
  match name with
  | .nop => asmPlain .nop ops
  | .clear => asmPlain .clear ops
  | .setcolor =>
    match ops with
    | [r, g, b] => (asmColor .setcolor r g b).map fun i => [i]
    | _ => none
  | .maskclr => asmPlain .maskclr ops
  | .maskpush =>
    match ops with
    | [cnt, data] => (asmPush cnt data).map fun i => [i]
    | _ => none
  | .composite => asmPlain .composite ops
  | .serp => asmPlain .serp ops
  | .glyph2 =>
    match ops with
    | [d] => (asmDigits d).map fun d => [.glyph2 d]
    | _ => none
  | .glyph4 =>
    match ops with
    | [d] => (asmDigits d).map fun d => [.glyph4 d]
    | _ => none
  | .glyph8 =>
    match ops with
    | [d] => (asmDigits d).map fun d => [.glyph8 d]
    | _ => none
  | .emit => asmPlain .emit ops
  | .fill =>
    match ops with
    | [r, g, b] => (asmColor .fill r g b).map fun i => [i]
    | _ => none
  | .clrstat => asmPlain .clrstat ops
  | .mask => (ops.mapM asmBit).map expandMask
  | .counter2 =>
    match ops with
    | [d, r, g, b] => asmCounter expandCounter2 d r g b
    | _ => none
  | .counter4 =>
    match ops with
    | [d, r, g, b] => asmCounter expandCounter4 d r g b
    | _ => none
  | .counter8 =>
    match ops with
    | [d, r, g, b] => asmCounter expandCounter8 d r g b
    | _ => none

/-- What a decoder prints of a command: its name and operands, MASKPUSH's data masked to its low CNT bits (R73). -/
def printed : Instr → AsmName × List Nat
  | .nop => (.nop, [])
  | .clear => (.clear, [])
  | .setcolor r g b => (.setcolor, [r.toNat, g.toNat, b.toNat])
  | .maskclr => (.maskclr, [])
  | .maskpush cnt data => (.maskpush, [cnt.toNat, canonicalData cnt.toNat data.toNat])
  | .composite => (.composite, [])
  | .serp => (.serp, [])
  | .glyph2 d => (.glyph2, [d.toNat])
  | .glyph4 d => (.glyph4, [d.toNat])
  | .glyph8 d => (.glyph8, [d.toNat])
  | .emit => (.emit, [])
  | .fill r g b => (.fill, [r.toNat, g.toNat, b.toNat])
  | .clrstat => (.clrstat, [])

/-! ### Lines of text -/

/-- A blank inside a line (log 15). -/
def isBlank (c : Char) : Bool := c == ' ' || c == '\t'

/-- The line without its comment (R70). -/
def withoutComment (line : List Char) : List Char := line.takeWhile fun c => !(c == ';')

/-- The characters without blanks at either end (log 15). -/
def trimmed (l : List Char) : List Char := ((l.dropWhile isBlank).reverse.dropWhile isBlank).reverse

/-- The pieces between commas (R70). -/
def splitCommas : List Char → List (List Char)
  | [] => [[]]
  | c :: rest =>
    match splitCommas rest with
    | [] => [[c]]
    | piece :: more => if c == ',' then [] :: piece :: more else (c :: piece) :: more

/-- The value of a digit in base 10 or 16. -/
def digitValue (base : Nat) (c : Char) : Option Nat :=
  let v :=
    if '0'.toNat ≤ c.toNat ∧ c.toNat ≤ '9'.toNat then some (c.toNat - '0'.toNat)
    else if 'a'.toNat ≤ c.toNat ∧ c.toNat ≤ 'f'.toNat then some (c.toNat - 'a'.toNat + 10)
    else if 'A'.toNat ≤ c.toNat ∧ c.toNat ≤ 'F'.toNat then some (c.toNat - 'A'.toNat + 10)
    else none
  match v with
  | some d => if d < base then some d else none
  | none => none

/-- The number written by digits, most significant first. -/
def digitsValue (base acc : Nat) : List Char → Option Nat
  | [] => some acc
  | c :: rest =>
    match digitValue base c with
    | some d => digitsValue base (acc * base + d) rest
    | none => none

/-- A number: decimal, or hexadecimal with the prefix 0x (R70). -/
def numberOf : List Char → Option Nat
  | [] => none
  | '0' :: 'x' :: [] => none
  | '0' :: 'x' :: digits => digitsValue 16 0 digits
  | digits => digitsValue 10 0 digits

/-- The operands of a line, separated by commas (R70). -/
def operandsOf (l : List Char) : Option (List Nat) :=
  if l = [] then some [] else (splitCommas l).mapM fun piece => numberOf (trimmed piece)

/-- One line of assembly: a name, then its operands, then perhaps a comment. An empty line has no command (R70). -/
def parseLine (line : List Char) : Option (List Instr) :=
  match trimmed (withoutComment line) with
  | [] => some []
  | c :: rest =>
    let body := c :: rest
    let name := body.takeWhile fun c => !isBlank c
    match asmNames.lookup name, operandsOf (trimmed (body.drop name.length)) with
    | some n, some ops => assembleLine n ops
    | some _, none => none
    | none, _ => none

/-- A program: the words of its lines, in order (R70, R74); one refused line refuses it. -/
def assemble (lines : List (List Char)) : Option (List Word) :=
  (lines.mapM parseLine).map fun parts => parts.flatten.map encode

end Sys2Proof.Machine
end

