-- ==== Sys2Proof/Safety.lean ====
section
/-! DEFINITION. What claims about the block are stated in: the invariant, the entry premises of 70_reset_and_hazards.md
R144, the observation and the end of a run of 60_exceptions.md R128. -/

namespace Sys2Proof.Machine

/-- What every step keeps: the launch constraints (R141), a frame buffer of N cells and a mask within its capacity
(R24, R26), STATUS bits 31:2 at 0 (R29), and only frames of 3N bytes on the output port (R115). -/
structure State.Inv (s : State) : Prop where
  params : s.params.Valid
  memory : Memory.wf s
  status : s.status &&& ~~~3#32 = 0#32
  frames : ∀ f ∈ s.out, f.length = 3 * s.npix

/-- The shared premise `FreshAfterReset`: the state of R138 with the launch constraints of R141 (R144). -/
structure FreshAfterReset (s : State) : Prop where
  params : s.params.Valid
  color : s.color = 0#24
  mask : s.mask = []
  cells : s.fb.length = s.npix
  unwritten : ∀ p, s.fbw p = false
  status : s.status = 0#32
  out : s.out = []
  k : s.k = 0

/-- The shared premise `CleanFrameEntry`: STATUS = 0 and every pixel written (R144). -/
structure CleanFrameEntry (s : State) : Prop where
  status : s.status = 0#32
  written : ∀ p, p < s.npix → s.fbw p = true

/-- The observation of a run: the final (FB, MASK, COLOR, STATUS, OUT) (R128). -/
structure Observation where
  fb : List (Option Pixel)
  mask : List Bool
  color : BitVec 24
  status : BitVec 32
  out : List Frame
deriving DecidableEq, Repr

/-- What is observed of a state (R128). -/
def State.observe (s : State) : Observation where
  fb := s.fb
  mask := s.mask
  color := s.color
  status := s.status
  out := s.out

/-- "No error" at the end of a run: STATUS = 0 and no model fault (R128). -/
def NoError (o : Host.Outcome State Fault Refusal) : Prop := ∃ t, o = .next t ∧ t.status = 0#32

/-- What an illegal word does when the host issues it: STATUS.ILL <- 1 and the count k, nothing else (R120). -/
def IllegalEffect (w : Word) : Prop :=
  ∀ (s : State) (rest : List Input), s.inbox = .command w :: rest →
    step s = .next { s with inbox := rest, status := s.status ||| 1#32, k := s.k + 1 }

/-- Two states that differ at most in the count k (R21, R48). -/
def SameButCount (s t : State) : Prop := { t with k := s.k } = s

/-! ### The pseudocode of SERP, as it is written (R76) -/

/-- `for i = 0 to (H / 2) − 1` of R76: `left` iterations from i on. -/
def swapLoop {α : Type} (n h base : Nat) : (left i : Nat) → List α → List α
  | 0, _, l => l
  | left + 1, i, l => swapLoop n h base left (i + 1) (swapCells n l (base + i, base + h - 1 - i))

/-- `while s < N` of R76 at the base offset `off`, for at most `fuel` rounds. -/
def serpLoop {α : Type} (p : Params) (off : Nat) : (fuel s : Nat) → List α → List α
  | 0, _, l => l
  | fuel + 1, s, l =>
    if s < p.npix then
      serpLoop p off fuel (s + 2 * p.w.toNat) (swapLoop p.npix p.h.toNat (s + off) (p.h.toNat / 2) 0 l)
    else l

/-- Where SERP at the base offset `off` takes the pixel at j from, when the spans do not overlap (H ≤ 2·W): its mirror
in the span of its row pair, if j lies in that span and the mirror is a pixel; else j itself (R76, R77, R78). -/
def serpSource (p : Params) (off j : Nat) : Nat :=
  let base := off + 2 * p.w.toNat * ((j - off) / (2 * p.w.toNat))
  let mirror := base + p.h.toNat - 1 - (j - base)
  if off ≤ j ∧ j - base < p.h.toNat ∧ mirror < p.npix then mirror else j

/-! ### Layers (R86, R93, R94) -/

/-- COMPOSITE commands one after another, each with the mask and the colour loaded before it (R86, R93). -/
def paintLayers : List (List Bool × BitVec 24) → State → Host.Outcome State Fault Refusal
  | [], s => .next s
  | (m, c) :: rest, s => andThen (exec .composite ((s.setMask m).setColor c)) (paintLayers rest)

/-- The colour of the last layer that selects pixel p, if one does (R93, R94). -/
def lastColor (layers : List Layer) (p : Nat) : Option Pixel :=
  ((layers.filter fun l => maskBit l.bits p).getLast?).map fun l => { r := l.r, g := l.g, b := l.b }

/-- F of R94: each pixel has the colour of the last layer that selects it, or (0,0,0). -/
def composedPixels (n : Nat) (layers : List Layer) : List Pixel :=
  (List.range n).map fun p => (lastColor layers p).getD black

/-! ### Which words raise which condition (R123) -/

/-- The operand is outside the supported range of its digit command (R124). -/
def Instr.outOfRange : Instr → Bool
  | .glyph2 d => decide (99 < d.toNat)
  | .glyph4 d => decide (9999 < d.toNat)
  | .glyph8 d => decide (99999999 < d.toNat)
  | .nop => false
  | .clear => false
  | .setcolor _ _ _ => false
  | .maskclr => false
  | .maskpush _ _ => false
  | .composite => false
  | .serp => false
  | .emit => false
  | .fill _ _ _ => false
  | .clrstat => false

/-- The word raises the condition (R123). -/
def raises (w : Word) (c : Condition) : Prop :=
  match c with
  | .ill => (decode w).isCommand = false
  | .range => ∃ i, decode w = .command i ∧ Instr.outOfRange i = true

end Sys2Proof.Machine
end

