-- ==== Sys2Proof/Certificates/Slice0/Obligations.lean ====
section
/-! DEFINITION. The statements for the provers. Each says which rule of spec/ it formalises. -/

open Sys2Proof Sys2Proof.Machine

/-! ### Encoding (30_encoding.md) -/

/-- R57 to R64: no bit of an encoding is dropped. -/
def Obligations.DecodeOfEncode : Prop :=
  ∀ i : Instr, i.wellFormed = true → decode (encode i) = .command i

/-- R57 to R64: each legal word has one command, and that command's word is the word. -/
def Obligations.EncodeOfDecode : Prop :=
  ∀ (w : Word) (i : Instr), decode w = .command i → encode i = w ∧ i.wellFormed = true

/-- R63, R64: words of every format, written out from the encoding tables, decode to their commands. -/
def Obligations.SampleWordsDecode : Prop :=
  decode 0b00000000000000000000000000000000#32 = .command .nop ∧
  decode 0b00100000111111110000000010000000#32 = .command (.setcolor 255#8 0#8 128#8) ∧
  decode 0b01000000000001000000000000000101#32 = .command (.maskpush 4#5 5#16) ∧
  decode 0b01100000000000000000000000000000#32 = .command .serp ∧
  decode 0b10010000101111000110000101001110#32 = .command (.glyph8 12345678#28) ∧
  decode 0b10100000000000000000000000000000#32 = .command .emit ∧
  decode 0b11010000000000000000000000000000#32 = .illegal .reservedOpcode

/-- R70, the encoding column: the words the assembler writes. -/
def Obligations.WordsOfAssemblyTable : Prop :=
  encode .nop = 0x00000000#32 ∧ encode .clear = 0x10000000#32 ∧ encode .maskclr = 0x30000000#32 ∧
  encode .composite = 0x50000000#32 ∧ encode .serp = 0x60000000#32 ∧ encode .emit = 0xA0000000#32 ∧
  encode .clrstat = 0xC0000000#32 ∧
  (∀ r g b : Byte, encode (.setcolor r g b) =
    0x20000000#32 ||| (r.setWidth 32 <<< 16) ||| (g.setWidth 32 <<< 8) ||| b.setWidth 32) ∧
  (∀ r g b : Byte, encode (.fill r g b) =
    0xB0000000#32 ||| (r.setWidth 32 <<< 16) ||| (g.setWidth 32 <<< 8) ||| b.setWidth 32) ∧
  (∀ (cnt : BitVec 5) (data : BitVec 16), encode (.maskpush cnt data) =
    0x40000000#32 ||| (cnt.setWidth 32 <<< 16) ||| data.setWidth 32) ∧
  (∀ d : BitVec 28, encode (.glyph2 d) = 0x70000000#32 ||| d.setWidth 32 ∧
    encode (.glyph4 d) = 0x80000000#32 ||| d.setWidth 32 ∧ encode (.glyph8 d) = 0x90000000#32 ||| d.setWidth 32)

/-- R63: the decoder agrees with the opcode map's masks and patterns, MASKPUSH's count in 1..16 besides. -/
def Obligations.DecodeMeetsOpcodeMap : Prop :=
  (∀ (w : Word) (i : Instr), decode w = .command i →
    ∃ row ∈ opcodeRows, row.admits w = true ∧ row.mnemonic = i.mnemonic) ∧
  (∀ (w : Word), ∀ row ∈ opcodeRows, row.admits w = true →
    (row.mnemonic = "MASKPUSH" → countInRange (countOf w) = true) →
    ∃ i, decode w = .command i ∧ i.mnemonic = row.mnemonic)

/-- R68: how many words are legal, and how many are not. -/
def Obligations.LegalWordCount : Prop :=
  Nat.card { w : Word // (decode w).isCommand = true } = 839909383 ∧
  Nat.card { w : Word // (decode w).isCommand = false } = 3455057913

/-- R65: every word with opcode 0xD, 0xE or 0xF has no effect except STATUS.ILL <- 1 (and the count k, R21). -/
def Obligations.ReservedOpcodeIsIllegal : Prop :=
  ∀ w : Word, opcodeOf w = 0xD#4 ∨ opcodeOf w = 0xE#4 ∨ opcodeOf w = 0xF#4 →
    (decode w).isCommand = false ∧ IllegalEffect w

/-- R66: a word with a defined opcode is illegal when a reserved field is nonzero, or when MASKPUSH's count is 0 or
more than 16. -/
def Obligations.ReservedFieldOrCountIsIllegal : Prop :=
  (∀ w : Word, opcodeOf w ∈ [0x0#4, 0x1#4, 0x3#4, 0x5#4, 0x6#4, 0xA#4, 0xC#4] → operandOf w ≠ 0#28 →
    (decode w).isCommand = false ∧ IllegalEffect w) ∧
  (∀ w : Word, opcodeOf w ∈ [0x2#4, 0xB#4] → reservedC w ≠ 0#4 →
    (decode w).isCommand = false ∧ IllegalEffect w) ∧
  (∀ w : Word, opcodeOf w = 0x4#4 → reservedM w ≠ 0#7 ∨ (countOf w).toNat = 0 ∨ 16 < (countOf w).toNat →
    (decode w).isCommand = false ∧ IllegalEffect w)

/-- R73, first part: two MASKPUSH words that differ only in ignored DATA bits have the same effect. -/
def Obligations.IgnoredDataBitsHaveNoEffect : Prop :=
  ∀ (cnt : BitVec 5) (d d' : BitVec 16) (s : State), (∀ j, j < cnt.toNat → d.getLsbD j = d'.getLsbD j) →
    exec (.maskpush cnt d) s = exec (.maskpush cnt d') s

/-- R71, R73: the assembler accepts what a decoder prints of a well-formed command, and gives that command back, but
for MASKPUSH's ignored DATA bits, which it writes as zero and which change no effect. -/
def Obligations.AssemblerReadsWhatDecoderPrints : Prop :=
  ∀ i : Instr, i.wellFormed = true → ∃ j, assembleLine (printed i).1 (printed i).2 = some [j] ∧
    (∀ s, exec j s = exec i s) ∧
    ((∀ cnt data, i ≠ .maskpush cnt data) → j = i) ∧
    (∀ cnt data, i = .maskpush cnt data →
      ∃ data', j = .maskpush cnt data' ∧ ∀ b, cnt.toNat ≤ b → data'.getLsbD b = false)

/-! ### Steps, register reads, reset -/

/-- R49, R64: when the host's next input is a word that decodes to a command, the step is that command's meaning on
the state with the word taken; and a word placed with `withFetchWord` is the one the very next step runs. -/
def Obligations.StepRunsDecodedCommand : Prop :=
  (∀ (s : State) (w : Word) (i : Instr) (rest : List Input), s.inbox = .command w :: rest →
    decode w = .command i → step s = exec i { s with inbox := rest }) ∧
  (∀ (s : State) (i : Instr), i.wellFormed = true → step (s.withFetchWord 32 (encode i).toNat) = exec i s)

/-- R120: an illegal word sets STATUS.ILL, is counted in k, and changes nothing else. -/
def Obligations.IllegalWordOnlySetsIll : Prop :=
  ∀ (w : Word) (c : IllegalCause), decode w = .illegal c → IllegalEffect w ∧
    ∀ s : State, ({ s with status := s.status ||| 1#32 } : State).ill = true ∧
      ({ s with status := s.status ||| 1#32 } : State).range = s.range

/-- R137: between commands the block holds all state unchanged; only a command or a reset changes the block. -/
def Obligations.OnlyCommandsAndResetChangeTheBlock : Prop :=
  (∀ s : State, s.inbox = [] → step s = .next s) ∧
  (∀ (s t : State), step s = .next t → (∀ w rest, s.inbox ≠ .command w :: rest) →
    (∀ w h rest, s.inbox ≠ .reset w h :: rest) →
    t.params = s.params ∧ t.color = s.color ∧ t.mask = s.mask ∧ t.fb = s.fb ∧ t.status = s.status ∧
      t.out = s.out ∧ t.k = s.k)

/-- R32: the register read map, every index and every reset value. MLEN fits its register because the mask is within
its capacity (R24). -/
def Obligations.RegisterReadMap : Prop :=
  (∀ (s : State) (i : BitVec 8), s.mask.length ≤ s.params.mmax.toNat →
    (i = 0#8 → (s.readReg i).getLsbD 0 = s.ill ∧ (s.readReg i).getLsbD 1 = s.range ∧
      ∀ j, 2 ≤ j → (s.readReg i).getLsbD j = false) ∧
    (i = 1#8 → (s.readReg i).extractLsb' 16 16 = s.params.h ∧ (s.readReg i).extractLsb' 0 16 = s.params.w) ∧
    (i = 2#8 → (s.readReg i).toNat = s.params.w.toNat * s.params.h.toNat) ∧
    (i = 3#8 → (s.readReg i).extractLsb' 24 8 = 0#8 ∧ (s.readReg i).extractLsb' 0 24 = s.color) ∧
    (i = 4#8 → (s.readReg i).toNat = s.mask.length) ∧
    (i = 5#8 → s.readReg i = s.params.nmax) ∧
    (i = 6#8 → s.readReg i = s.params.mmax) ∧
    (7#8 ≤ i → s.readReg i = 0#32)) ∧
  (∀ p : Params, (State.fresh p).readReg 0#8 = 0#32 ∧ (State.fresh p).readReg 1#8 = p.h ++ p.w ∧
    ((State.fresh p).readReg 2#8).toNat = p.w.toNat * p.h.toNat ∧ (State.fresh p).readReg 3#8 = 0#32 ∧
    (State.fresh p).readReg 4#8 = 0#32 ∧ (State.fresh p).readReg 5#8 = p.nmax ∧ (State.fresh p).readReg 6#8 = p.mmax)

/-- R33: a register read has no side effect; it answers with the state every earlier command left, and with none of
what a later one does; reserved indices answer 0. The answer is appended to the port's history, which is the model's
own (log 7). -/
def Obligations.ReadSeesExactlyEarlierCommands : Prop :=
  (∀ (s : State) (i : BitVec 8) (rest : List Input), s.inbox = .read i :: rest →
    step s = .next { s with inbox := rest, replies := s.replies ++ [(i, s.readReg i)] } ∧
    (7 ≤ i.toNat → s.readReg i = 0#32)) ∧
  (∀ (ws : List Word) (i : BitVec 8) (rest : List Input) (s t : State),
    s.inbox = ws.map Input.command ++ .read i :: rest → runWords ws { s with inbox := .read i :: rest } = .next t →
    Host.Core.run Sys2Proof.core (ws.length + 1) s =
      .next { t with inbox := rest, replies := t.replies ++ [(i, t.readReg i)] })

/-- R49, R50: the steps over a stream of words are those words' effects one after another, each starting from what the
one before it left, whatever the host issues after them: two runs that differ only in the later inputs end alike, in
next states that differ only there, or in the same fault. -/
def Obligations.WordsRunInIssueOrder : Prop :=
  (∀ (ws : List Word) (rest : List Input) (s : State), s.inbox = ws.map Input.command ++ rest →
    Host.Core.run Sys2Proof.core ws.length s = runWords ws { s with inbox := rest }) ∧
  (∀ (ws : List Word) (rest rest' : List Input) (s : State),
    runWords ws { s with inbox := rest' } =
      andThen (runWords ws { s with inbox := rest }) fun t => .next { t with inbox := rest' })

/-- R21: k starts at 0 after reset, goes up by exactly 1 per command, illegal ones included, and no register shows it;
nothing else but a reset sets it. -/
def Obligations.CountAdvancesOncePerCommand : Prop :=
  (∀ p : Params, (State.fresh p).k = 0) ∧
  (∀ (s t : State) (w : Word) (rest : List Input), s.inbox = .command w :: rest → step s = .next t →
    t.k = s.k + 1) ∧
  (∀ (s t : State), step s = .next t → (∀ w rest, s.inbox ≠ .command w :: rest) →
    (∀ w h rest, s.inbox ≠ .reset w h :: rest) → t.k = s.k) ∧
  (∀ (s : State) (n : Nat) (i : BitVec 8), ({ s with k := n } : State).readReg i = s.readReg i)

/-- R139: reset is the only event that changes W or H, and nothing changes the other parameters. -/
def Obligations.OnlyResetChangesTheGrid : Prop :=
  ∀ s t : State, step s = .next t →
    (t.params = s.params ∨ ∃ w h rest, s.inbox = .reset w h :: rest ∧ t.params.w = w ∧ t.params.h = h) ∧
    t.params.nmax = s.params.nmax ∧ t.params.mmax = s.params.mmax ∧ t.params.rom = s.params.rom ∧
    t.params.serpBase = s.params.serpBase ∧ t.params.glyph8Layout = s.params.glyph8Layout

/-- R138: what a reset leaves, element by element. -/
def Obligations.ResetPutsEveryElementInItsResetState : Prop :=
  ∀ (s : State) (w h : BitVec 16) (rest : List Input), s.inbox = .reset w h :: rest →
    ({ s.params with w := w, h := h } : Params).Valid →
    ∃ t, step s = .next t ∧ t.params.w = w ∧ t.params.h = h ∧ t.npix = w.toNat * h.toNat ∧ t.color = 0x000000#24 ∧
      t.mask = [] ∧ t.fb.length = w.toNat * h.toNat ∧ (∀ p, t.fbw p = false) ∧ t.status = 0x00000000#32 ∧
      t.params.rom = s.params.rom ∧ t.out = [] ∧ t.k = 0 ∧ t.inbox = rest

/-- R141: a launch with parameters that satisfy all the constraints starts in the state after reset; a launch that
breaks one of them is refused. -/
def Obligations.LaunchConstraints : Prop :=
  ∀ p : Params,
    ((1 ≤ p.w.toNat ∧ p.w.toNat ≤ 65535 ∧ 1 ≤ p.h.toNat ∧ p.h.toNat ≤ 65535 ∧
      p.w.toNat * p.h.toNat ≤ p.nmax.toNat ∧ p.nmax.toNat ≤ 2 ^ 32 - 1 ∧
      p.nmax.toNat ≤ p.mmax.toNat ∧ 256 ≤ p.mmax.toNat ∧ p.mmax.toNat ≤ 2 ^ 32 - 1) →
      launch p = .next (State.fresh p) ∧ FreshAfterReset (State.fresh p)) ∧
    (¬ (1 ≤ p.w.toNat ∧ p.w.toNat ≤ 65535 ∧ 1 ≤ p.h.toNat ∧ p.h.toNat ≤ 65535 ∧
      p.w.toNat * p.h.toNat ≤ p.nmax.toNat ∧ p.nmax.toNat ≤ 2 ^ 32 - 1 ∧
      p.nmax.toNat ≤ p.mmax.toNat ∧ 256 ≤ p.mmax.toNat ∧ p.mmax.toNat ≤ 2 ^ 32 - 1) →
      launch p = .refused .invalidConfig)

/-- The model's own reading of R141 (log 9): a reset whose sampled W and H break a launch constraint is refused as a
launch is. -/
def Obligations.InvalidResetIsRefused : Prop :=
  ∀ (s : State) (w h : BitVec 16) (rest : List Input), s.inbox = .reset w h :: rest →
    ¬ ({ s.params with w := w, h := h } : Params).Valid → step s = .refused .invalidConfig

/-- R13, R14, R138: `State.reset` is a state after reset, of a launch with the spec's SERP_BASE and GLYPH8_LAYOUT. The
launch's W, H, NMAX and MMAX are the model's choice (log 2), and nothing is said of them. -/
def Obligations.ResetStateIsFreshAfterReset : Prop :=
  FreshAfterReset State.reset ∧ State.reset.params.serpBase = .even ∧ State.reset.params.glyph8Layout = .flat

/-- The invariant holds after every reset of a valid launch, `State.reset` among them. -/
def Obligations.InvariantHoldsAfterReset : Prop :=
  State.reset.Inv ∧ ∀ p : Params, p.Valid → (State.fresh p).Inv

/-- R24, R26, R29, R115, R141: every step keeps the invariant: valid parameters, N cells, a mask within MMAX, reserved
STATUS bits 0, and only frames of 3N bytes. -/
def Obligations.StepKeepsInvariant : Prop :=
  ∀ s t : State, s.Inv → step s = .next t → t.Inv

/-! ### Control commands and STATUS (44_control.md, 10_state.md R29) -/

/-- R117: NOP writes nothing; only the count k advances. Its one word is 0x00000000; with other operand bits the word
is illegal. -/
def Obligations.NopOnlyCounts : Prop :=
  (∀ w : Word, decode w = .command .nop ↔ w = 0x00000000#32) ∧
  (∀ s : State, exec .nop s = .next { s with k := s.k + 1 }) ∧
  (∀ w : Word, opcodeOf w = 0x0#4 → operandOf w ≠ 0#28 → IllegalEffect w)

/-- R118: CLRSTAT clears ILL and RANGE and writes nothing else; an illegal word with its opcode clears nothing. -/
def Obligations.ClrstatClearsBothFlags : Prop :=
  decode 0xC0000000#32 = .command .clrstat ∧
  (∀ s : State, ∃ v : BitVec 32, exec .clrstat s = .next { s with status := v, k := s.k + 1 } ∧
    v.getLsbD 0 = false ∧ v.getLsbD 1 = false ∧ ∀ j, 2 ≤ j → v.getLsbD j = s.status.getLsbD j) ∧
  (∀ w : Word, opcodeOf w = 0xC#4 → operandOf w ≠ 0#28 → IllegalEffect w)

/-- R123: the codes of the two conditions are their STATUS bit numbers, and each bit is set by the words that raise
its condition and by nothing else; once set it stays until CLRSTAT or reset (R29). -/
def Obligations.FlagsAreStickyAndSetOnlyByTheirCause : Prop :=
  Condition.ill.code = 0 ∧ Condition.range.code = 1 ∧
  ∀ (s t : State) (c : Condition), step s = .next t → (∀ w h rest, s.inbox ≠ .reset w h :: rest) →
    (t.status.getLsbD c.code = true ↔
      (∃ w rest, s.inbox = .command w :: rest ∧ raises w c) ∨
      (s.status.getLsbD c.code = true ∧ ∀ w rest, s.inbox = .command w :: rest → decode w ≠ .command .clrstat))

/-- R130: one word raises at most one condition. -/
def Obligations.OneWordRaisesAtMostOneCondition : Prop :=
  (∀ w : Word, ¬ (raises w .ill ∧ raises w .range)) ∧
  (∀ s t : State, step s = .next t → s.ill = false → s.range = false → ¬ (t.ill = true ∧ t.range = true))

/-! ### Who writes what (10_state.md R34, 60_exceptions.md R126) -/

/-- R34: every command leaves the elements its row leaves empty, and the configuration, the parameters and the ports'
own lists, as they were. -/
def Obligations.CommandsWriteOnlyTheirElements : Prop :=
  ∀ (i : Instr) (s t : State), exec i s = .next t →
    t.params = s.params ∧ t.inbox = s.inbox ∧ t.replies = s.replies ∧
    ((∀ r g b, i ≠ .setcolor r g b) → t.color = s.color) ∧
    ((i ≠ .maskclr ∧ (∀ c d, i ≠ .maskpush c d) ∧ (∀ d, i ≠ .glyph2 d ∧ i ≠ .glyph4 d ∧ i ≠ .glyph8 d)) →
      t.mask = s.mask) ∧
    ((i ≠ .clear ∧ i ≠ .composite ∧ i ≠ .serp) → t.fb = s.fb) ∧
    ((i ≠ .clrstat ∧ Instr.outOfRange i = false) → t.status = s.status) ∧
    ((i ≠ .emit ∧ ∀ r g b, i ≠ .fill r g b) → t.out = s.out)

/-- R126, R130: no command is refused, and only EMIT can fault. -/
def Obligations.OnlyEmitCanStop : Prop :=
  ∀ (i : Instr) (s : State), (∀ r, exec i s ≠ .refused r) ∧
    (i ≠ .emit → ∃ t, exec i s = .next t) ∧
    (∀ f, exec i s = .fault f → i = .emit ∧ ∃ p, f = .uninitRead p)

/-- R48: these commands run twice in a row leave the same state as run once, but for the count k (R21). A digit command
is taken in its range, since out of it the mask is drawn anew (log 6). -/
def Obligations.IdempotentCommands : Prop :=
  ∀ (i : Instr) (s t u : State),
    (i = .nop ∨ i = .clear ∨ (∃ r g b, i = .setcolor r g b) ∨ i = .maskclr ∨ i = .composite ∨
      (∃ d, i = .glyph2 d ∨ i = .glyph4 d ∨ i = .glyph8 d) ∨ i = .clrstat) →
    Instr.outOfRange i = false → exec i s = .next t → exec i t = .next u → SameButCount t u

/-! ### Frame Compositor (41_compositor.md) -/

/-- R83: CLEAR sets every pixel to (0,0,0), written, and nothing else. -/
def Obligations.ClearBlackensEveryPixel : Prop :=
  decode 0x10000000#32 = .command .clear ∧
  ∀ s : State, ∃ fb', exec .clear s = .next { s with fb := fb', k := s.k + 1 } ∧ fb'.length = s.npix ∧
    ∀ p, p < s.npix → fb'[p]? = some (some { r := 0#8, g := 0#8, b := 0#8 })

/-- R85: SETCOLOR writes COLOR, R in 23:16, G in 15:8, B in 7:0, and nothing else; with word[27:24] nonzero the word is
illegal. -/
def Obligations.SetcolorLoadsColor : Prop :=
  (∀ r g b : Byte, decode (0x2#4 ++ 0#4 ++ r ++ g ++ b) = .command (.setcolor r g b)) ∧
  (∀ (s : State) (r g b : Byte), ∃ c : BitVec 24,
    exec (.setcolor r g b) s = .next { s with color := c, k := s.k + 1 } ∧
    c.extractLsb' 16 8 = r ∧ c.extractLsb' 8 8 = g ∧ c.extractLsb' 0 8 = b) ∧
  (∀ w : Word, opcodeOf w = 0x2#4 → reservedC w ≠ 0#4 → IllegalEffect w)

/-- R87: MASKCLR empties the mask and writes nothing else. -/
def Obligations.MaskclrEmptiesMask : Prop :=
  decode 0x30000000#32 = .command .maskclr ∧
  ∀ s : State, exec .maskclr s = .next { s with mask := [], k := s.k + 1 }

/-- R89: MASKPUSH appends data[0..cnt−1] in order as far as MMAX allows, and writes nothing else; its illegal forms
change only STATUS.ILL. -/
def Obligations.MaskpushAppendsBits : Prop :=
  (∀ (cnt : BitVec 5) (data : BitVec 16), 1 ≤ cnt.toNat → cnt.toNat ≤ 16 →
    decode (0x4#4 ++ 0#7 ++ cnt ++ data) = .command (.maskpush cnt data)) ∧
  (∀ (s : State) (cnt : BitVec 5) (data : BitVec 16), 1 ≤ cnt.toNat → cnt.toNat ≤ 16 →
    exec (.maskpush cnt data) s =
      .next { s with
        mask := s.mask ++ (((List.range cnt.toNat).map fun j => data.getLsbD j).take (s.params.mmax.toNat - s.mask.length))
        k := s.k + 1 }) ∧
  (∀ w : Word, opcodeOf w = 0x4#4 → reservedM w ≠ 0#7 ∨ (countOf w).toNat = 0 ∨ 16 < (countOf w).toNat →
    IllegalEffect w)

/-- R90: at MLEN = MMAX pushes are dropped without a flag; and a dropped bit could never select a pixel. -/
def Obligations.DroppedPushesChangeNoFrame : Prop :=
  (∀ (s : State) (cnt : BitVec 5) (data : BitVec 16), s.mask.length = s.params.mmax.toNat →
    exec (.maskpush cnt data) s = .next { s with k := s.k + 1 }) ∧
  (∀ (s t : State) (cnt : BitVec 5) (data : BitVec 16), s.params.Valid → s.mask.length ≤ s.params.mmax.toNat →
    exec (.maskpush cnt data) s = .next t → ∀ p, p < s.npix →
      t.maskBit p = maskBit (s.mask ++ (List.range cnt.toNat).map fun j => data.getLsbD j) p)

/-- R92: COMPOSITE paints exactly the pixels p < N with MaskBit(p) = 1; every other pixel, and every other element,
keeps its value. The cells number N in every state a run reaches (`StepKeepsInvariant`). -/
def Obligations.CompositePaintsSelectedPixels : Prop :=
  decode 0x50000000#32 = .command .composite ∧
  ∀ s : State, s.fb.length = s.npix →
    ∃ fb', exec .composite s = .next { s with fb := fb', k := s.k + 1 } ∧ fb'.length = s.npix ∧
      ∀ p, p < s.npix →
        (s.mask[p]? = some true → fb'[p]? = some (some
          { r := s.color.extractLsb' 16 8, g := s.color.extractLsb' 8 8, b := s.color.extractLsb' 0 8 })) ∧
        (s.mask[p]? ≠ some true → fb'[p]? = s.fb[p]?)

/-- R93: after a sequence of COMPOSITE commands, each with its own mask and colour, a pixel has the colour of the last
layer that selected it, and its old value where none did. -/
def Obligations.LastLayerWins : Prop :=
  ∀ (layers : List (List Bool × BitVec 24)) (s : State), s.fb.length = s.npix →
    ∃ t, paintLayers layers s = .next t ∧ t.fb.length = s.npix ∧ ∀ p, p < s.npix →
      t.readPixel p =
        match (layers.filter fun l => maskBit l.1 p).getLast? with
        | some l => some (colorPixel l.2)
        | none => s.readPixel p

/-- R84: CLEAR, SERP, EMIT emits 3N zero bytes, and SERP changes nothing in between. -/
def Obligations.ClearSerpEmitSendsZeroBytes : Prop :=
  ∀ s : State, ∃ t u v, exec .clear s = .next t ∧ exec .serp t = .next u ∧ u.fb = t.fb ∧ exec .emit u = .next v ∧
    v.out = s.out ++ [List.replicate (3 * s.npix) 0#8]

/-- R94, R143: the expansion of SENDFRAME, from any state of the invariant, completes without a fault, sets no flag
and appends exactly the serpentine of the composed layers. -/
def Obligations.SendFrameEmitsSerpentineOfLayers : Prop :=
  ∀ (layers : List Layer) (s : State), s.Inv →
    ∃ t, execAll (expandSendFrame layers) s = .next t ∧ t.status = s.status ∧ t.params = s.params ∧
      t.out = s.out ++ [(serpCells s.params (composedPixels s.npix layers)).flatMap pixelBytes]

/-! ### Geometry Mapper (40_geometry.md) -/

/-- R76, R77: SERP is the loop of its pseudocode on FB, each swap exchanging two entries in range and skipped
otherwise, and writes nothing else. The loop's base offset is 0 for SERP_BASE = EVEN and W for ODD (R13). -/
def Obligations.SerpIsItsPseudocode : Prop :=
  decode 0x60000000#32 = .command .serp ∧
  (∀ s : State, 1 ≤ s.params.w.toNat → ∀ fuel, s.npix < fuel →
    exec .serp s = .next { s with
      fb := serpLoop s.params (if s.params.serpBase = .even then 0 else s.params.w.toNat) fuel 0 s.fb
      k := s.k + 1 }) ∧
  (∀ (n a b : Nat) (l : List (Option Pixel)), l.length = n →
    (a < n → b < n → ∀ j, (swapCells n l (a, b))[j]? = if j = b then l[a]? else if j = a then l[b]? else l[j]?) ∧
    (n ≤ a ∨ n ≤ b → swapCells n l (a, b) = l))

/-- R76, R77: where the spans do not overlap, SERP puts at j the pixel at j's mirror in its span, in one stroke. The spans
begin at offset 0 of their row pair for SERP_BASE = EVEN and at W for ODD (R13). -/
def Obligations.SerpMirrorsDisjointSpans : Prop :=
  ∀ s : State, 1 ≤ s.params.w.toNat → s.params.h.toNat ≤ 2 * s.params.w.toNat → s.fb.length = s.npix →
    ∃ fb', exec .serp s = .next { s with fb := fb', k := s.k + 1 } ∧ fb'.length = s.npix ∧
      ∀ j, j < s.npix →
        fb'[j]? = s.fb[serpSource s.params (if s.params.serpBase = .even then 0 else s.params.w.toNat) j]?

/-- R78: H = 1 leaves FB unchanged; no swap of a span of odd height touches its middle entry; the trailing partial row
pair is walked. -/
def Obligations.SerpDegenerateHeights : Prop :=
  (∀ s : State, s.params.h.toNat = 1 → exec .serp s = .next { s with k := s.k + 1 }) ∧
  (∀ h base : Nat, h % 2 = 1 → ∀ ab ∈ spanSwaps h base, ab.1 ≠ base + (h - 1) / 2 ∧ ab.2 ≠ base + (h - 1) / 2) ∧
  (∀ n w s : Nat, 1 ≤ w → (s ∈ pairStarts n w ↔ s < n ∧ 2 * w ∣ s))

/-- R79: SERP twice restores FB when H ≤ 2·W, and does not for W = 1, H = 10. -/
def Obligations.SerpTwiceRestoresDisjointSpans : Prop :=
  (∀ s t u : State, 1 ≤ s.params.w.toNat → s.params.h.toNat ≤ 2 * s.params.w.toNat → s.fb.length = s.npix →
    exec .serp s = .next t → exec .serp t = .next u → u.fb = s.fb) ∧
  (∀ p : Params, p.w = 1#16 → p.h = 10#16 → p.serpBase = .even →
    serpCells p (serpCells p (List.range 10)) = [4, 5, 3, 2, 9, 8, 7, 6, 1, 0])

/-- R80: SERP permutes FB's entries, and leaves a buffer of equal pixels unchanged. -/
def Obligations.SerpPermutesPixels : Prop :=
  (∀ s t : State, exec .serp s = .next t → t.fb.Perm s.fb) ∧
  (∀ (s : State) (px : Option Pixel), s.fb = List.replicate s.npix px →
    exec .serp s = .next { s with k := s.k + 1 })

/-- R81, H = W with SERP_BASE = EVEN: SERP reverses rows 0, 2, 4, … and leaves the others: a true serpentine. -/
def Obligations.SquareGridIsTrueSerpentine : Prop :=
  ∀ s : State, s.params.serpBase = .even → s.params.h = s.params.w → s.fb.length = s.npix →
    ∃ fb', exec .serp s = .next { s with fb := fb', k := s.k + 1 } ∧
      ∀ r c, r < s.params.h.toNat → c < s.params.w.toNat →
        fb'[r * s.params.w.toNat + c]? =
          if r % 2 = 0 then s.fb[r * s.params.w.toNat + (s.params.w.toNat - 1 - c)]?
          else s.fb[r * s.params.w.toNat + c]?

/-! ### Digit Font (42_font.md) -/

/-- R97: G(d, r, c) is bit 3 − c of the row word. -/
def Obligations.GlyphColumnsReadLeftToRight : Prop :=
  ∀ (rom : GlyphRom) (d : Fin 10) (r : Fin 8) (c : Nat), c < 4 →
    glyphBit rom d r c = (rom[d][r]).getLsbD (3 - c)

/-- R99: the decimal decompositions. -/
def Obligations.DecimalDecomposition : Prop :=
  (∀ d, d ≤ 99 → ∃ hi lo, digits2 d = [hi, lo] ∧ hi = d / 10 ∧ lo = d % 10 ∧ hi ≤ 9 ∧ lo ≤ 9 ∧ d = 10 * hi + lo) ∧
  (∀ d, d ≤ 9999 → ∃ p3 p2 p1 p0, digits4 d = [p3, p2, p1, p0] ∧ p3 = d / 1000 ∧ p2 = d / 100 % 10 ∧
    p1 = d / 10 % 10 ∧ p0 = d % 10 ∧ p3 ≤ 9 ∧ p2 ≤ 9 ∧ p1 ≤ 9 ∧ p0 ≤ 9 ∧
    d = 1000 * p3 + 100 * p2 + 10 * p1 + p0) ∧
  (∀ d, d ≤ 99999999 → d / 10000 ≤ 9999 ∧ d % 10000 ≤ 9999 ∧ d = 10000 * (d / 10000) + d % 10000)

/-- R100: GLYPH2 of d ≤ 99 loads the 64 bits of its two digits, hi left of lo in each of 8 rows; above 99 it sets
STATUS.RANGE and the mask is 64 bits, which ones is a free value (`draws` is the model's own, log 6). Nothing else is
written. -/
def Obligations.Glyph2LoadsTwoDigits : Prop :=
  ∀ (s : State) (d : BitVec 28), decode (0x7#4 ++ d) = .command (.glyph2 d) ∧
    (d.toNat ≤ 99 → ∃ m, exec (.glyph2 d) s = .next { s with mask := m, k := s.k + 1 } ∧ m.length = 64 ∧
      ∀ r c, r < 8 → c < 8 → m[8 * r + c]? = some
        (if c < 4 then glyphBit s.params.rom (d.toNat / 10) r c
          else glyphBit s.params.rom (d.toNat % 10) r (c - 4))) ∧
    (99 < d.toNat → ∃ m, m.length = 64 ∧ exec (.glyph2 d) s =
      .next { s with mask := m, status := s.status ||| 2#32, draws := s.draws + 1, k := s.k + 1 })

/-- R103, R104: GLYPH4 of d ≤ 9999 loads the 128 bits of its four digits, thousands first in each of 8 rows; above 9999
it sets STATUS.RANGE and the mask is 128 bits, which ones is a free value (`draws` is the model's own, log 6). Nothing
else is written. -/
def Obligations.Glyph4LoadsFourDigits : Prop :=
  ∀ (s : State) (d : BitVec 28), decode (0x8#4 ++ d) = .command (.glyph4 d) ∧
    (d.toNat ≤ 9999 → ∃ m, exec (.glyph4 d) s = .next { s with mask := m, k := s.k + 1 } ∧ m.length = 128 ∧
      ∀ r c, r < 8 → c < 4 →
        m[16 * r + c]? = some (glyphBit s.params.rom (d.toNat / 1000) r c) ∧
        m[16 * r + 4 + c]? = some (glyphBit s.params.rom (d.toNat / 100 % 10) r c) ∧
        m[16 * r + 8 + c]? = some (glyphBit s.params.rom (d.toNat / 10 % 10) r c) ∧
        m[16 * r + 12 + c]? = some (glyphBit s.params.rom (d.toNat % 10) r c)) ∧
    (9999 < d.toNat → ∃ m, m.length = 128 ∧ exec (.glyph4 d) s =
      .next { s with mask := m, status := s.status ||| 2#32, draws := s.draws + 1, k := s.k + 1 })

/-- R105, R106: GLYPH8 of d ≤ 99999999 joins the renders of its high and low four digits as GLYPH8_LAYOUT says; above
99999999 it sets STATUS.RANGE and the mask is 256 bits, which ones is a free value (`draws` is the model's own, log 6).
Nothing else is written. -/
def Obligations.Glyph8JoinsTwoRenders : Prop :=
  ∀ (s : State) (d : BitVec 28), decode (0x9#4 ++ d) = .command (.glyph8 d) ∧
    (d.toNat ≤ 99999999 → ∃ m, exec (.glyph8 d) s = .next { s with mask := m, k := s.k + 1 } ∧ m.length = 256 ∧
      (s.params.glyph8Layout = .flat → ∀ j, j < 256 →
        m[j]? = if j < 128 then (render4 s.params.rom (d.toNat / 10000))[j]?
          else (render4 s.params.rom (d.toNat % 10000))[j - 128]?) ∧
      (s.params.glyph8Layout = .rowwise → ∀ r c, r < 8 → c < 32 →
        m[32 * r + c]? = if c < 16 then (render4 s.params.rom (d.toNat / 10000))[16 * r + c]?
          else (render4 s.params.rom (d.toNat % 10000))[16 * r + (c - 16)]?)) ∧
    (99999999 < d.toNat → ∃ m, m.length = 256 ∧ exec (.glyph8 d) s =
      .next { s with mask := m, status := s.status ||| 2#32, draws := s.draws + 1, k := s.k + 1 })

/-- R124: a word that raises RANGE is a GLYPH2, GLYPH4 or GLYPH8 word with a digit operand above 99, 9999 or 99999999;
it sets STATUS.RANGE, gives MASK its command's length with unspecified bits, and changes nothing else. Taking the word
from the inbox and the counter `draws` are the model's own (log 1, log 6). -/
def Obligations.RangeWordSetsFlagAndMaskLength : Prop :=
  ∀ (w : Word), raises w .range →
    ((opcodeOf w = 0x7#4 ∧ 99 < (operandOf w).toNat) ∨ (opcodeOf w = 0x8#4 ∧ 9999 < (operandOf w).toNat) ∨
      (opcodeOf w = 0x9#4 ∧ 99999999 < (operandOf w).toNat)) ∧
    ∀ (s : State) (rest : List Input), s.inbox = .command w :: rest →
      ∃ m, step s = .next { s with
          inbox := rest, mask := m, status := s.status ||| 2#32, draws := s.draws + 1, k := s.k + 1 } ∧
        m.length = if opcodeOf w = 0x7#4 then 64 else if opcodeOf w = 0x8#4 then 128 else 256

/-- R107: of 256 bits, the two layouts take each from the same place only at indices 0..15 and 240..255: the place of
index j of the row-by-row join among the bits of A ++ B is j itself there, and another index everywhere else. -/
def Obligations.LayoutsAgreeOnlyAtTheEnds : Prop :=
  ∃ place : Nat → Nat,
    (∀ a b : List Bool, a.length = 128 → b.length = 128 → ∀ j, j < 256 →
      (joinHalves .flat a b)[j]? = (a ++ b)[j]? ∧ (joinHalves .rowwise a b)[j]? = (a ++ b)[place j]? ∧
        place j < 256) ∧
    (∀ j, j < 256 → (place j = j ↔ j < 16 ∨ 240 ≤ j))

/-- R72: the COUNTER pseudo-instructions reduce their operand, so from a state of the invariant they complete without a
fault and set no flag. -/
def Obligations.CountersStayInRange : Prop :=
  ∀ (d : Nat) (r g b : Byte) (s : State), s.Inv →
    ∀ l ∈ [expandCounter2 d r g b, expandCounter4 d r g b, expandCounter8 d r g b],
      ∃ t f, execAll l s = .next t ∧ t.status = s.status ∧ t.out = s.out ++ [f]

/-! ### Frame output (43_output.md) -/

/-- R109, R110: EMIT of a buffer whose pixels are all written appends one frame of 3N bytes, byte k of it channel
k mod 3 of pixel k / 3, and writes nothing else; where some pixel is not written since reset, the model faults with
UNINIT_READ at the lowest one. -/
def Obligations.EmitSerializesBuffer : Prop :=
  decode 0xA0000000#32 = .command .emit ∧
  (∀ s : State, (∀ p, p < s.npix → s.fbw p = true) →
    ∃ f, exec .emit s = .next { s with out := s.out ++ [f], k := s.k + 1 } ∧ f.length = 3 * s.npix ∧
      ∀ k px, k < 3 * s.npix → s.readPixel (k / 3) = some px →
        f[k]? = some (if k % 3 = 0 then px.r else if k % 3 = 1 then px.g else px.b)) ∧
  (∀ (s : State) (p : Nat), p < s.npix → s.fbw p = false → (∀ q, q < p → s.fbw q = true) →
    exec .emit s = .fault (.uninitRead p))

/-- R112: EMIT neither clears FB nor applies the Geometry Mapper, so two EMITs append two identical frames. -/
def Obligations.EmitTwiceSendsTheSameFrame : Prop :=
  ∀ s t : State, exec .emit s = .next t → t.fb = s.fb ∧
    ∃ f u, t.out = s.out ++ [f] ∧ exec .emit t = .next u ∧ u.out = s.out ++ [f, f] ∧ u.fb = s.fb

/-- R113: FILL appends N repetitions of r, g, b, 3N bytes, and writes nothing else; with word[27:24] nonzero the word
is illegal. -/
def Obligations.FillSendsUniformFrame : Prop :=
  (∀ r g b : Byte, decode (0xB#4 ++ 0#4 ++ r ++ g ++ b) = .command (.fill r g b)) ∧
  (∀ (s : State) (r g b : Byte), ∃ f,
    exec (.fill r g b) s = .next { s with out := s.out ++ [f], k := s.k + 1 } ∧ f.length = 3 * s.npix ∧
    ∀ p, p < s.npix → f[3 * p]? = some r ∧ f[3 * p + 1]? = some g ∧ f[3 * p + 2]? = some b) ∧
  (∀ w : Word, opcodeOf w = 0xB#4 → reservedC w ≠ 0#4 → IllegalEffect w)

/-- R114: FILL leaves FB and COLOR unchanged, and its frame is what EMIT sends of a buffer painted with (r, g, b)
everywhere, before SERP or after it. -/
def Obligations.FillEqualsEmitOfPaintedBuffer : Prop :=
  ∀ (s u : State) (r g b : Byte), u.npix = s.npix →
    u.fb = List.replicate u.npix (some { r := r, g := g, b := b }) →
    ∃ f t v v' x, exec (.fill r g b) s = .next t ∧ t.fb = s.fb ∧ t.color = s.color ∧ t.out = s.out ++ [f] ∧
      exec .emit u = .next v ∧ v.out = u.out ++ [f] ∧
      exec .serp u = .next x ∧ exec .emit x = .next v' ∧ v'.out = u.out ++ [f]

/-- R142, R144: right after reset COMPOSITE writes nothing and EMIT faults at pixel 0; after CLEAR, EMIT completes. -/
def Obligations.ClearBeforeTheFirstEmit : Prop :=
  ∀ s : State, FreshAfterReset s →
    exec .composite s = .next { s with k := s.k + 1 } ∧ exec .emit s = .fault (.uninitRead 0) ∧
    ∃ t u, exec .clear s = .next t ∧ exec .emit t = .next u
end

