-- ==== Sys2Proof/Laws/Encoding.lean ====
section
/-! SUPPORT. The fields of a word that an encoder wrote, one lemma for each field of each format. -/

namespace Sys2Proof

open BitVec

/-- A field that lies above the lowest part of an appended word. -/
theorem field_above {n m start len : Nat} (x : BitVec n) (y : BitVec m) (h : m ≤ start) :
    extractLsb' start len (x ++ y) = extractLsb' (start - m) len x :=
  extractLsb'_append_eq_of_le h

/-- A field that is the highest part of an appended word. -/
theorem field_high {n m : Nat} (x : BitVec n) (y : BitVec m) : extractLsb' m n (x ++ y) = x :=
  extractLsb'_append_eq_left

/-- A field that is the lowest part of an appended word. -/
theorem field_low {n m : Nat} (x : BitVec n) (y : BitVec m) : extractLsb' 0 m (x ++ y) = y :=
  extractLsb'_append_eq_right

@[simp] theorem opcodeOf_encodeZ (op : BitVec 4) : opcodeOf (encodeZ op) = op := field_high _ _

@[simp] theorem operandOf_encodeZ (op : BitVec 4) : operandOf (encodeZ op) = 0#28 := field_low _ _

@[simp] theorem opcodeOf_encodeD (op : BitVec 4) (d : BitVec 28) : opcodeOf (encodeD op d) = op := field_high _ _

@[simp] theorem operandOf_encodeD (op : BitVec 4) (d : BitVec 28) : operandOf (encodeD op d) = d := field_low _ _

@[simp] theorem opcodeOf_encodeC (op : BitVec 4) (r g b : Byte) : opcodeOf (encodeC op r g b) = op :=
  (field_above (start := 28) (len := 4) (op ++ 0#4 ++ r ++ g) b (by decide)).trans <|
  (field_above (start := 20) (op ++ 0#4 ++ r) g (by decide)).trans <|
  (field_above (start := 12) (op ++ 0#4) r (by decide)).trans <| field_high op 0#4

@[simp] theorem reservedC_encodeC (op : BitVec 4) (r g b : Byte) : reservedC (encodeC op r g b) = 0#4 :=
  (field_above (start := 24) (len := 4) (op ++ 0#4 ++ r ++ g) b (by decide)).trans <|
  (field_above (start := 16) (op ++ 0#4 ++ r) g (by decide)).trans <|
  (field_above (start := 8) (op ++ 0#4) r (by decide)).trans <| field_low op 0#4

@[simp] theorem redOf_encodeC (op : BitVec 4) (r g b : Byte) : redOf (encodeC op r g b) = r :=
  (field_above (start := 16) (len := 8) (op ++ 0#4 ++ r ++ g) b (by decide)).trans <|
  (field_above (start := 8) (op ++ 0#4 ++ r) g (by decide)).trans <| field_low (op ++ 0#4) r

@[simp] theorem greenOf_encodeC (op : BitVec 4) (r g b : Byte) : greenOf (encodeC op r g b) = g :=
  (field_above (start := 8) (len := 8) (op ++ 0#4 ++ r ++ g) b (by decide)).trans <| field_low (op ++ 0#4 ++ r) g

@[simp] theorem blueOf_encodeC (op : BitVec 4) (r g b : Byte) : blueOf (encodeC op r g b) = b :=
  field_low (op ++ 0#4 ++ r ++ g) b

@[simp] theorem opcodeOf_encodeM (op : BitVec 4) (cnt : BitVec 5) (data : BitVec 16) :
    opcodeOf (encodeM op cnt data) = op :=
  (field_above (start := 28) (len := 4) (op ++ 0#7 ++ cnt) data (by decide)).trans <|
  (field_above (start := 12) (op ++ 0#7) cnt (by decide)).trans <| field_high op 0#7

@[simp] theorem reservedM_encodeM (op : BitVec 4) (cnt : BitVec 5) (data : BitVec 16) :
    reservedM (encodeM op cnt data) = 0#7 :=
  (field_above (start := 21) (len := 7) (op ++ 0#7 ++ cnt) data (by decide)).trans <|
  (field_above (start := 5) (op ++ 0#7) cnt (by decide)).trans <| field_low op 0#7

@[simp] theorem countOf_encodeM (op : BitVec 4) (cnt : BitVec 5) (data : BitVec 16) :
    countOf (encodeM op cnt data) = cnt :=
  (field_above (start := 16) (len := 5) (op ++ 0#7 ++ cnt) data (by decide)).trans <| field_low (op ++ 0#7) cnt

@[simp] theorem dataOf_encodeM (op : BitVec 4) (cnt : BitVec 5) (data : BitVec 16) :
    dataOf (encodeM op cnt data) = data :=
  field_low (op ++ 0#7 ++ cnt) data

/-! ### What each format decodes to -/

theorem decodeZ_eq_command {w : Word} {i j : Instr} : decodeZ w i = .command j ↔ operandOf w = 0#28 ∧ i = j := by
  unfold decodeZ
  split <;> simp_all

theorem decodeC_eq_command {w : Word} {mk : Byte → Byte → Byte → Instr} {j : Instr} :
    decodeC w mk = .command j ↔ reservedC w = 0#4 ∧ mk (redOf w) (greenOf w) (blueOf w) = j := by
  unfold decodeC
  split <;> simp_all

theorem decodeM_eq_command {w : Word} {mk : BitVec 5 → BitVec 16 → Instr} {j : Instr} :
    decodeM w mk = .command j ↔
      reservedM w = 0#7 ∧ countInRange (countOf w) = true ∧ mk (countOf w) (dataOf w) = j := by
  unfold decodeM
  split
  · split <;> simp_all
  · simp_all

theorem decodeD_eq_command {w : Word} {mk : BitVec 28 → Instr} {j : Instr} :
    decodeD w mk = .command j ↔ mk (operandOf w) = j := by
  simp [decodeD]

/-- Every opcode is one of sixteen. -/
theorem opcode_cases (op : BitVec 4) :
    op = 0x0#4 ∨ op = 0x1#4 ∨ op = 0x2#4 ∨ op = 0x3#4 ∨ op = 0x4#4 ∨ op = 0x5#4 ∨ op = 0x6#4 ∨ op = 0x7#4 ∨
    op = 0x8#4 ∨ op = 0x9#4 ∨ op = 0xA#4 ∨ op = 0xB#4 ∨ op = 0xC#4 ∨ op = 0xD#4 ∨ op = 0xE#4 ∨ op = 0xF#4 := by
  revert op
  decide

/-! ### A word is its fields -/

/-- Two neighbouring fields are one field. -/
theorem field_join (w : Word) (start a b : Nat) :
    extractLsb' (start + a) b w ++ extractLsb' start a w = extractLsb' start (b + a) w :=
  extractLsb'_append_extractLsb'_eq_extractLsb' rfl

theorem encodeD_fields (w : Word) : encodeD (opcodeOf w) (operandOf w) = w :=
  (field_join w 0 28 4).trans extractLsb'_eq_self

theorem encodeZ_fields {w : Word} (h : operandOf w = 0#28) : encodeZ (opcodeOf w) = w := by
  have e := encodeD_fields w
  rwa [h] at e

theorem encodeC_fields {w : Word} (h : reservedC w = 0#4) :
    encodeC (opcodeOf w) (redOf w) (greenOf w) (blueOf w) = w := by
  have e1 : opcodeOf w ++ reservedC w = extractLsb' 24 8 w := field_join w 24 4 4
  have e2 : opcodeOf w ++ reservedC w ++ redOf w = extractLsb' 16 16 w :=
    (congrArg (· ++ redOf w) e1).trans (field_join w 16 8 8)
  have e3 : opcodeOf w ++ reservedC w ++ redOf w ++ greenOf w = extractLsb' 8 24 w :=
    (congrArg (· ++ greenOf w) e2).trans (field_join w 8 8 16)
  have e4 : opcodeOf w ++ reservedC w ++ redOf w ++ greenOf w ++ blueOf w = extractLsb' 0 32 w :=
    (congrArg (· ++ blueOf w) e3).trans (field_join w 0 8 24)
  rw [h] at e4
  exact e4.trans extractLsb'_eq_self

theorem encodeM_fields {w : Word} (h : reservedM w = 0#7) :
    encodeM (opcodeOf w) (countOf w) (dataOf w) = w := by
  have e1 : opcodeOf w ++ reservedM w = extractLsb' 21 11 w := field_join w 21 7 4
  have e2 : opcodeOf w ++ reservedM w ++ countOf w = extractLsb' 16 16 w :=
    (congrArg (· ++ countOf w) e1).trans (field_join w 16 5 11)
  have e3 : opcodeOf w ++ reservedM w ++ countOf w ++ dataOf w = extractLsb' 0 32 w :=
    (congrArg (· ++ dataOf w) e2).trans (field_join w 0 16 16)
  rw [h] at e3
  exact e3.trans extractLsb'_eq_self

end Sys2Proof
end

