-- ==== Sys2Proof/Laws/State.lean ====
section
/-! SUPPORT. One lemma for each field of each update of State, and for the reads that depend on one field. -/

namespace Sys2Proof.Machine

variable (s : State)

/-! ### setColor -/

@[simp] theorem State.setColor_params (c : BitVec 24) : (s.setColor c).params = s.params := rfl
@[simp] theorem State.setColor_color (c : BitVec 24) : (s.setColor c).color = c := rfl
@[simp] theorem State.setColor_mask (c : BitVec 24) : (s.setColor c).mask = s.mask := rfl
@[simp] theorem State.setColor_fb (c : BitVec 24) : (s.setColor c).fb = s.fb := rfl
@[simp] theorem State.setColor_status (c : BitVec 24) : (s.setColor c).status = s.status := rfl
@[simp] theorem State.setColor_out (c : BitVec 24) : (s.setColor c).out = s.out := rfl
@[simp] theorem State.setColor_k (c : BitVec 24) : (s.setColor c).k = s.k := rfl
@[simp] theorem State.setColor_inbox (c : BitVec 24) : (s.setColor c).inbox = s.inbox := rfl
@[simp] theorem State.setColor_replies (c : BitVec 24) : (s.setColor c).replies = s.replies := rfl
@[simp] theorem State.setColor_draws (c : BitVec 24) : (s.setColor c).draws = s.draws := rfl
@[simp] theorem State.setColor_npix (c : BitVec 24) : (s.setColor c).npix = s.npix := rfl
@[simp] theorem State.setColor_readPixel (c : BitVec 24) (q : Nat) : (s.setColor c).readPixel q = s.readPixel q := rfl
@[simp] theorem State.setColor_maskBit (c : BitVec 24) (q : Nat) : (s.setColor c).maskBit q = s.maskBit q := rfl

/-! ### setMask -/

@[simp] theorem State.setMask_params (m : List Bool) : (s.setMask m).params = s.params := rfl
@[simp] theorem State.setMask_color (m : List Bool) : (s.setMask m).color = s.color := rfl
@[simp] theorem State.setMask_mask (m : List Bool) : (s.setMask m).mask = m := rfl
@[simp] theorem State.setMask_fb (m : List Bool) : (s.setMask m).fb = s.fb := rfl
@[simp] theorem State.setMask_status (m : List Bool) : (s.setMask m).status = s.status := rfl
@[simp] theorem State.setMask_out (m : List Bool) : (s.setMask m).out = s.out := rfl
@[simp] theorem State.setMask_k (m : List Bool) : (s.setMask m).k = s.k := rfl
@[simp] theorem State.setMask_inbox (m : List Bool) : (s.setMask m).inbox = s.inbox := rfl
@[simp] theorem State.setMask_replies (m : List Bool) : (s.setMask m).replies = s.replies := rfl
@[simp] theorem State.setMask_draws (m : List Bool) : (s.setMask m).draws = s.draws := rfl
@[simp] theorem State.setMask_npix (m : List Bool) : (s.setMask m).npix = s.npix := rfl
@[simp] theorem State.setMask_readPixel (m : List Bool) (q : Nat) : (s.setMask m).readPixel q = s.readPixel q := rfl

/-! ### setFb -/

@[simp] theorem State.setFb_params (fb : List (Option Pixel)) : (s.setFb fb).params = s.params := rfl
@[simp] theorem State.setFb_color (fb : List (Option Pixel)) : (s.setFb fb).color = s.color := rfl
@[simp] theorem State.setFb_mask (fb : List (Option Pixel)) : (s.setFb fb).mask = s.mask := rfl
@[simp] theorem State.setFb_fb (fb : List (Option Pixel)) : (s.setFb fb).fb = fb := rfl
@[simp] theorem State.setFb_status (fb : List (Option Pixel)) : (s.setFb fb).status = s.status := rfl
@[simp] theorem State.setFb_out (fb : List (Option Pixel)) : (s.setFb fb).out = s.out := rfl
@[simp] theorem State.setFb_k (fb : List (Option Pixel)) : (s.setFb fb).k = s.k := rfl
@[simp] theorem State.setFb_inbox (fb : List (Option Pixel)) : (s.setFb fb).inbox = s.inbox := rfl
@[simp] theorem State.setFb_replies (fb : List (Option Pixel)) : (s.setFb fb).replies = s.replies := rfl
@[simp] theorem State.setFb_draws (fb : List (Option Pixel)) : (s.setFb fb).draws = s.draws := rfl
@[simp] theorem State.setFb_npix (fb : List (Option Pixel)) : (s.setFb fb).npix = s.npix := rfl
@[simp] theorem State.setFb_maskBit (fb : List (Option Pixel)) (q : Nat) : (s.setFb fb).maskBit q = s.maskBit q := rfl

/-! ### setStatus -/

@[simp] theorem State.setStatus_params (v : BitVec 32) : (s.setStatus v).params = s.params := rfl
@[simp] theorem State.setStatus_color (v : BitVec 32) : (s.setStatus v).color = s.color := rfl
@[simp] theorem State.setStatus_mask (v : BitVec 32) : (s.setStatus v).mask = s.mask := rfl
@[simp] theorem State.setStatus_fb (v : BitVec 32) : (s.setStatus v).fb = s.fb := rfl
@[simp] theorem State.setStatus_status (v : BitVec 32) : (s.setStatus v).status = v := rfl
@[simp] theorem State.setStatus_out (v : BitVec 32) : (s.setStatus v).out = s.out := rfl
@[simp] theorem State.setStatus_k (v : BitVec 32) : (s.setStatus v).k = s.k := rfl
@[simp] theorem State.setStatus_inbox (v : BitVec 32) : (s.setStatus v).inbox = s.inbox := rfl
@[simp] theorem State.setStatus_replies (v : BitVec 32) : (s.setStatus v).replies = s.replies := rfl
@[simp] theorem State.setStatus_draws (v : BitVec 32) : (s.setStatus v).draws = s.draws := rfl
@[simp] theorem State.setStatus_npix (v : BitVec 32) : (s.setStatus v).npix = s.npix := rfl
@[simp] theorem State.setStatus_readPixel (v : BitVec 32) (q : Nat) : (s.setStatus v).readPixel q = s.readPixel q := rfl
@[simp] theorem State.setStatus_maskBit (v : BitVec 32) (q : Nat) : (s.setStatus v).maskBit q = s.maskBit q := rfl

/-! ### emitFrame -/

@[simp] theorem State.emitFrame_params (f : Frame) : (s.emitFrame f).params = s.params := rfl
@[simp] theorem State.emitFrame_color (f : Frame) : (s.emitFrame f).color = s.color := rfl
@[simp] theorem State.emitFrame_mask (f : Frame) : (s.emitFrame f).mask = s.mask := rfl
@[simp] theorem State.emitFrame_fb (f : Frame) : (s.emitFrame f).fb = s.fb := rfl
@[simp] theorem State.emitFrame_status (f : Frame) : (s.emitFrame f).status = s.status := rfl
@[simp] theorem State.emitFrame_out (f : Frame) : (s.emitFrame f).out = s.out ++ [f] := rfl
@[simp] theorem State.emitFrame_k (f : Frame) : (s.emitFrame f).k = s.k := rfl
@[simp] theorem State.emitFrame_inbox (f : Frame) : (s.emitFrame f).inbox = s.inbox := rfl
@[simp] theorem State.emitFrame_replies (f : Frame) : (s.emitFrame f).replies = s.replies := rfl
@[simp] theorem State.emitFrame_draws (f : Frame) : (s.emitFrame f).draws = s.draws := rfl
@[simp] theorem State.emitFrame_npix (f : Frame) : (s.emitFrame f).npix = s.npix := rfl
@[simp] theorem State.emitFrame_readPixel (f : Frame) (q : Nat) : (s.emitFrame f).readPixel q = s.readPixel q := rfl
@[simp] theorem State.emitFrame_maskBit (f : Frame) (q : Nat) : (s.emitFrame f).maskBit q = s.maskBit q := rfl

/-! ### complete -/

@[simp] theorem State.complete_params : (s.complete).params = s.params := rfl
@[simp] theorem State.complete_color : (s.complete).color = s.color := rfl
@[simp] theorem State.complete_mask : (s.complete).mask = s.mask := rfl
@[simp] theorem State.complete_fb : (s.complete).fb = s.fb := rfl
@[simp] theorem State.complete_status : (s.complete).status = s.status := rfl
@[simp] theorem State.complete_out : (s.complete).out = s.out := rfl
@[simp] theorem State.complete_k : (s.complete).k = s.k + 1 := rfl
@[simp] theorem State.complete_inbox : (s.complete).inbox = s.inbox := rfl
@[simp] theorem State.complete_replies : (s.complete).replies = s.replies := rfl
@[simp] theorem State.complete_draws : (s.complete).draws = s.draws := rfl
@[simp] theorem State.complete_npix : (s.complete).npix = s.npix := rfl
@[simp] theorem State.complete_readPixel (q : Nat) : (s.complete).readPixel q = s.readPixel q := rfl
@[simp] theorem State.complete_maskBit (q : Nat) : (s.complete).maskBit q = s.maskBit q := rfl

/-! ### setInbox -/

@[simp] theorem State.setInbox_params (l : List Input) : (s.setInbox l).params = s.params := rfl
@[simp] theorem State.setInbox_color (l : List Input) : (s.setInbox l).color = s.color := rfl
@[simp] theorem State.setInbox_mask (l : List Input) : (s.setInbox l).mask = s.mask := rfl
@[simp] theorem State.setInbox_fb (l : List Input) : (s.setInbox l).fb = s.fb := rfl
@[simp] theorem State.setInbox_status (l : List Input) : (s.setInbox l).status = s.status := rfl
@[simp] theorem State.setInbox_out (l : List Input) : (s.setInbox l).out = s.out := rfl
@[simp] theorem State.setInbox_k (l : List Input) : (s.setInbox l).k = s.k := rfl
@[simp] theorem State.setInbox_inbox (l : List Input) : (s.setInbox l).inbox = l := rfl
@[simp] theorem State.setInbox_replies (l : List Input) : (s.setInbox l).replies = s.replies := rfl
@[simp] theorem State.setInbox_draws (l : List Input) : (s.setInbox l).draws = s.draws := rfl
@[simp] theorem State.setInbox_npix (l : List Input) : (s.setInbox l).npix = s.npix := rfl
@[simp] theorem State.setInbox_readPixel (l : List Input) (q : Nat) : (s.setInbox l).readPixel q = s.readPixel q := rfl
@[simp] theorem State.setInbox_maskBit (l : List Input) (q : Nat) : (s.setInbox l).maskBit q = s.maskBit q := rfl

/-! ### reply -/

@[simp] theorem State.reply_params (i : BitVec 8) (v : Word) : (s.reply i v).params = s.params := rfl
@[simp] theorem State.reply_color (i : BitVec 8) (v : Word) : (s.reply i v).color = s.color := rfl
@[simp] theorem State.reply_mask (i : BitVec 8) (v : Word) : (s.reply i v).mask = s.mask := rfl
@[simp] theorem State.reply_fb (i : BitVec 8) (v : Word) : (s.reply i v).fb = s.fb := rfl
@[simp] theorem State.reply_status (i : BitVec 8) (v : Word) : (s.reply i v).status = s.status := rfl
@[simp] theorem State.reply_out (i : BitVec 8) (v : Word) : (s.reply i v).out = s.out := rfl
@[simp] theorem State.reply_k (i : BitVec 8) (v : Word) : (s.reply i v).k = s.k := rfl
@[simp] theorem State.reply_inbox (i : BitVec 8) (v : Word) : (s.reply i v).inbox = s.inbox := rfl
@[simp] theorem State.reply_replies (i : BitVec 8) (v : Word) : (s.reply i v).replies = s.replies ++ [(i, v)] := rfl
@[simp] theorem State.reply_draws (i : BitVec 8) (v : Word) : (s.reply i v).draws = s.draws := rfl
@[simp] theorem State.reply_npix (i : BitVec 8) (v : Word) : (s.reply i v).npix = s.npix := rfl
@[simp] theorem State.reply_readPixel (i : BitVec 8) (v : Word) (q : Nat) : (s.reply i v).readPixel q = s.readPixel q := rfl
@[simp] theorem State.reply_maskBit (i : BitVec 8) (v : Word) (q : Nat) : (s.reply i v).maskBit q = s.maskBit q := rfl

/-! ### raise -/

@[simp] theorem State.raise_params (c : Condition) : (s.raise c).params = s.params := rfl
@[simp] theorem State.raise_color (c : Condition) : (s.raise c).color = s.color := rfl
@[simp] theorem State.raise_mask (c : Condition) : (s.raise c).mask = s.mask := rfl
@[simp] theorem State.raise_fb (c : Condition) : (s.raise c).fb = s.fb := rfl
@[simp] theorem State.raise_status (c : Condition) : (s.raise c).status = statusWith s.status c := rfl
@[simp] theorem State.raise_out (c : Condition) : (s.raise c).out = s.out := rfl
@[simp] theorem State.raise_k (c : Condition) : (s.raise c).k = s.k := rfl
@[simp] theorem State.raise_inbox (c : Condition) : (s.raise c).inbox = s.inbox := rfl
@[simp] theorem State.raise_replies (c : Condition) : (s.raise c).replies = s.replies := rfl
@[simp] theorem State.raise_draws (c : Condition) : (s.raise c).draws = s.draws := rfl
@[simp] theorem State.raise_npix (c : Condition) : (s.raise c).npix = s.npix := rfl
@[simp] theorem State.raise_readPixel (c : Condition) (q : Nat) : (s.raise c).readPixel q = s.readPixel q := rfl
@[simp] theorem State.raise_maskBit (c : Condition) (q : Nat) : (s.raise c).maskBit q = s.maskBit q := rfl

/-! ### clearFlags -/

@[simp] theorem State.clearFlags_params : (s.clearFlags).params = s.params := rfl
@[simp] theorem State.clearFlags_color : (s.clearFlags).color = s.color := rfl
@[simp] theorem State.clearFlags_mask : (s.clearFlags).mask = s.mask := rfl
@[simp] theorem State.clearFlags_fb : (s.clearFlags).fb = s.fb := rfl
@[simp] theorem State.clearFlags_status : (s.clearFlags).status = statusCleared s.status := rfl
@[simp] theorem State.clearFlags_out : (s.clearFlags).out = s.out := rfl
@[simp] theorem State.clearFlags_k : (s.clearFlags).k = s.k := rfl
@[simp] theorem State.clearFlags_inbox : (s.clearFlags).inbox = s.inbox := rfl
@[simp] theorem State.clearFlags_replies : (s.clearFlags).replies = s.replies := rfl
@[simp] theorem State.clearFlags_draws : (s.clearFlags).draws = s.draws := rfl
@[simp] theorem State.clearFlags_npix : (s.clearFlags).npix = s.npix := rfl
@[simp] theorem State.clearFlags_readPixel (q : Nat) : (s.clearFlags).readPixel q = s.readPixel q := rfl
@[simp] theorem State.clearFlags_maskBit (q : Nat) : (s.clearFlags).maskBit q = s.maskBit q := rfl

/-! ### illegalWord -/

@[simp] theorem State.illegalWord_params : (s.illegalWord).params = s.params := rfl
@[simp] theorem State.illegalWord_color : (s.illegalWord).color = s.color := rfl
@[simp] theorem State.illegalWord_mask : (s.illegalWord).mask = s.mask := rfl
@[simp] theorem State.illegalWord_fb : (s.illegalWord).fb = s.fb := rfl
@[simp] theorem State.illegalWord_status : (s.illegalWord).status = statusWith s.status .ill := rfl
@[simp] theorem State.illegalWord_out : (s.illegalWord).out = s.out := rfl
@[simp] theorem State.illegalWord_k : (s.illegalWord).k = s.k + 1 := rfl
@[simp] theorem State.illegalWord_inbox : (s.illegalWord).inbox = s.inbox := rfl
@[simp] theorem State.illegalWord_replies : (s.illegalWord).replies = s.replies := rfl
@[simp] theorem State.illegalWord_draws : (s.illegalWord).draws = s.draws := rfl
@[simp] theorem State.illegalWord_npix : (s.illegalWord).npix = s.npix := rfl
@[simp] theorem State.illegalWord_readPixel (q : Nat) : (s.illegalWord).readPixel q = s.readPixel q := rfl
@[simp] theorem State.illegalWord_maskBit (q : Nat) : (s.illegalWord).maskBit q = s.maskBit q := rfl

/-! ### drawMask -/

@[simp] theorem State.drawMask_params (len : Nat) (d : BitVec 28) : (s.drawMask len d).params = s.params := rfl
@[simp] theorem State.drawMask_color (len : Nat) (d : BitVec 28) : (s.drawMask len d).color = s.color := rfl
@[simp] theorem State.drawMask_mask (len : Nat) (d : BitVec 28) : (s.drawMask len d).mask = (List.range len).map (Config.freeMaskBit s.draws len d) := rfl
@[simp] theorem State.drawMask_fb (len : Nat) (d : BitVec 28) : (s.drawMask len d).fb = s.fb := rfl
@[simp] theorem State.drawMask_status (len : Nat) (d : BitVec 28) : (s.drawMask len d).status = s.status := rfl
@[simp] theorem State.drawMask_out (len : Nat) (d : BitVec 28) : (s.drawMask len d).out = s.out := rfl
@[simp] theorem State.drawMask_k (len : Nat) (d : BitVec 28) : (s.drawMask len d).k = s.k := rfl
@[simp] theorem State.drawMask_inbox (len : Nat) (d : BitVec 28) : (s.drawMask len d).inbox = s.inbox := rfl
@[simp] theorem State.drawMask_replies (len : Nat) (d : BitVec 28) : (s.drawMask len d).replies = s.replies := rfl
@[simp] theorem State.drawMask_draws (len : Nat) (d : BitVec 28) : (s.drawMask len d).draws = s.draws + 1 := rfl
@[simp] theorem State.drawMask_npix (len : Nat) (d : BitVec 28) : (s.drawMask len d).npix = s.npix := rfl
@[simp] theorem State.drawMask_readPixel (len : Nat) (d : BitVec 28) (q : Nat) : (s.drawMask len d).readPixel q = s.readPixel q := rfl

/-! ### restarted -/

@[simp] theorem State.restarted_params (p : Params) : (s.restarted p).params = p := rfl
@[simp] theorem State.restarted_color (p : Params) : (s.restarted p).color = 0#24 := rfl
@[simp] theorem State.restarted_mask (p : Params) : (s.restarted p).mask = [] := rfl
@[simp] theorem State.restarted_fb (p : Params) : (s.restarted p).fb = List.replicate p.npix none := rfl
@[simp] theorem State.restarted_status (p : Params) : (s.restarted p).status = 0#32 := rfl
@[simp] theorem State.restarted_out (p : Params) : (s.restarted p).out = [] := rfl
@[simp] theorem State.restarted_k (p : Params) : (s.restarted p).k = 0 := rfl
@[simp] theorem State.restarted_inbox (p : Params) : (s.restarted p).inbox = s.inbox := rfl
@[simp] theorem State.restarted_replies (p : Params) : (s.restarted p).replies = [] := rfl
@[simp] theorem State.restarted_draws (p : Params) : (s.restarted p).draws = s.draws := rfl
@[simp] theorem State.restarted_npix (p : Params) : (s.restarted p).npix = p.npix := rfl

/-! ### The state after reset -/

@[simp] theorem State.fresh_params (p : Params) : (State.fresh p).params = p := rfl
@[simp] theorem State.fresh_color (p : Params) : (State.fresh p).color = 0#24 := rfl
@[simp] theorem State.fresh_mask (p : Params) : (State.fresh p).mask = [] := rfl
@[simp] theorem State.fresh_fb (p : Params) : (State.fresh p).fb = List.replicate p.npix none := rfl
@[simp] theorem State.fresh_status (p : Params) : (State.fresh p).status = 0#32 := rfl
@[simp] theorem State.fresh_out (p : Params) : (State.fresh p).out = [] := rfl
@[simp] theorem State.fresh_k (p : Params) : (State.fresh p).k = 0 := rfl
@[simp] theorem State.fresh_inbox (p : Params) : (State.fresh p).inbox = [] := rfl
@[simp] theorem State.fresh_replies (p : Params) : (State.fresh p).replies = [] := rfl
@[simp] theorem State.fresh_draws (p : Params) : (State.fresh p).draws = 0 := rfl
@[simp] theorem State.fresh_npix (p : Params) : (State.fresh p).npix = p.npix := rfl

end Sys2Proof.Machine
end

