-- ==== Sys2Proof/Laws/Ops.lean ====
section
/-! SUPPORT. What each shared operation over masks, cells, frames and STATUS does, said once. -/

namespace Sys2Proof.Machine

/-! ### STATUS -/

@[simp] theorem statusWith_ill (v : BitVec 32) : statusWith v .ill = v ||| 1#32 := rfl

@[simp] theorem statusWith_range (v : BitVec 32) : statusWith v .range = v ||| 2#32 := rfl

theorem getLsbD_statusWith (v : BitVec 32) (c : Condition) (j : Nat) :
    (statusWith v c).getLsbD j = (v.getLsbD j || decide (j = c.code)) := by
  by_cases hj : j < 32
  · interval_cases j <;> cases c <;> simp [statusWith, Condition.code]
  · have hne : j ≠ c.code := by cases c <;> simp only [Condition.code] <;> omega
    simp [BitVec.getLsbD_of_ge _ _ (Nat.le_of_not_lt hj), hne]

theorem getLsbD_statusCleared (v : BitVec 32) (j : Nat) :
    (statusCleared v).getLsbD j = (v.getLsbD j && decide (2 ≤ j)) := by
  by_cases hj : j < 32
  · interval_cases j <;> simp [statusCleared]
  · simp [BitVec.getLsbD_of_ge _ _ (Nat.le_of_not_lt hj)]

theorem getLsbD_statusShown (v : BitVec 32) (j : Nat) :
    (statusShown v).getLsbD j = (v.getLsbD j && decide (j < 2)) := by
  by_cases hj : j < 32
  · interval_cases j <;> simp [statusShown]
  · simp [BitVec.getLsbD_of_ge _ _ (Nat.le_of_not_lt hj)]

/-! ### Masks -/

theorem maskBit_of_le {mask : List Bool} {p : Nat} (h : mask.length ≤ p) : maskBit mask p = false := by
  simp [maskBit, List.getD_eq_getElem?_getD, List.getElem?_eq_none h]

theorem maskBit_eq_true_iff {mask : List Bool} {p : Nat} : maskBit mask p = true ↔ mask[p]? = some true := by
  rw [maskBit, List.getD_eq_getElem?_getD]
  cases mask[p]? <;> simp

@[simp] theorem maskBit_nil (p : Nat) : maskBit [] p = false := rfl

@[simp] theorem length_pushedBits (cnt : BitVec 5) (data : BitVec 16) :
    (pushedBits cnt data).length = cnt.toNat := by
  simp [pushedBits]

/-- The pushes of one MASKPUSH append the bits that still fit. -/
theorem pushBits_eq (cap : Nat) (mask bits : List Bool) :
    pushBits cap mask bits = mask ++ bits.take (cap - mask.length) := by
  induction bits generalizing mask with
  | nil => simp [pushBits]
  | cons b rest ih =>
    have hstep : pushBits cap mask (b :: rest) = pushBits cap (pushBit cap mask b) rest := rfl
    rw [hstep, ih, pushBit]
    split
    · obtain ⟨n, hn⟩ : ∃ n, cap - mask.length = n + 1 := ⟨cap - mask.length - 1, by omega⟩
      have hn' : cap - (mask ++ [b]).length = n := by simp; omega
      rw [hn, hn', List.take_succ_cons, List.append_assoc]
      rfl
    · have h0 : cap - mask.length = 0 := by omega
      simp [h0]

theorem length_pushBits_le {cap : Nat} {mask : List Bool} (bits : List Bool) (h : mask.length ≤ cap) :
    (pushBits cap mask bits).length ≤ cap := by
  rw [pushBits_eq, List.length_append, List.length_take]
  omega

/-! ### Cells -/

theorem readPixel_setFb (s : State) (fb : List (Option Pixel)) (p : Nat) :
    (s.setFb fb).readPixel p = (fb[p]?).join := rfl

@[simp] theorem length_clearedCells (n : Nat) : (clearedCells n).length = n := by simp [clearedCells]

theorem getElem?_clearedCells {n p : Nat} (h : p < n) : (clearedCells n)[p]? = some (some black) := by
  simp [clearedCells, h]

@[simp] theorem length_paintCells (n : Nat) (mask : List Bool) (c : Pixel) (fb : List (Option Pixel)) :
    (paintCells n mask c fb).length = fb.length := by
  simp [paintCells]

theorem getElem?_paintCells (n : Nat) (mask : List Bool) (c : Pixel) (fb : List (Option Pixel)) (p : Nat) :
    (paintCells n mask c fb)[p]? =
      (fb[p]?).map fun cell => if decide (p < n) && maskBit mask p then some c else cell := by
  simp [paintCells, List.getElem?_mapIdx]

/-! ### Frames -/

@[simp] theorem length_pixelBytes (px : Pixel) : (pixelBytes px).length = 3 := rfl

theorem length_uniformFrame (n : Nat) (px : Pixel) : (uniformFrame n px).length = 3 * n := by
  induction n with
  | zero => rfl
  | succ n ih =>
    have hstep : uniformFrame (n + 1) px = pixelBytes px ++ uniformFrame n px := by
      simp [uniformFrame, List.replicate_succ]
    rw [hstep, List.length_append, ih, length_pixelBytes]
    omega

/-- Serializing succeeds exactly on written pixels, and gives their bytes in ascending order. -/
theorem serializeFrom_eq_ok {read : Nat → Option Pixel} {px : Nat → Pixel} {p count : Nat}
    (h : ∀ q, p ≤ q → q < p + count → read q = some (px q)) :
    serializeFrom read p count = .ok ((List.range' p count).flatMap fun q => pixelBytes (px q)) := by
  induction count generalizing p with
  | zero => rfl
  | succ n ih =>
    rw [serializeFrom, h p (by omega) (by omega), ih fun q hq hq' => h q (by omega) (by omega)]
    simp [List.range'_succ]

/-- A frame that was serialized has three bytes for each pixel. -/
theorem length_of_serializeFrom {read : Nat → Option Pixel} {p count : Nat} {f : Frame}
    (h : serializeFrom read p count = .ok f) : f.length = 3 * count := by
  induction count generalizing p f with
  | zero => cases h; rfl
  | succ n ih =>
    rw [serializeFrom] at h
    split at h
    · cases h
    · split at h
      · cases h
      · rename_i g hg
        cases h
        rw [List.length_append, ih hg, length_pixelBytes]
        omega

/-- The pixel that serializing names is the lowest unwritten one. -/
theorem serializeFrom_error {read : Nat → Option Pixel} {p count q : Nat}
    (h : serializeFrom read p count = .error q) :
    p ≤ q ∧ q < p + count ∧ read q = none ∧ ∀ j, p ≤ j → j < q → (read j).isSome := by
  induction count generalizing p with
  | zero => cases h
  | succ n ih =>
    rw [serializeFrom] at h
    split at h
    · rename_i hnone
      cases h
      exact ⟨Nat.le_refl _, by omega, hnone, fun j hj hj' => by omega⟩
    · rename_i px hpx
      split at h
      · rename_i r hr
        cases h
        obtain ⟨h1, h2, h3, h4⟩ := ih hr
        refine ⟨by omega, by omega, h3, fun j hj hj' => ?_⟩
        rcases Nat.eq_or_lt_of_le hj with rfl | hlt
        · simp [hpx]
        · exact h4 j hlt hj'
      · cases h

/-! ### Launch and reset -/

theorem launch_of_valid {p : Params} (h : p.Valid) : launch p = .next (State.fresh p) := by
  simp only [launch, if_pos h]

theorem launch_of_not_valid {p : Params} (h : ¬ p.Valid) : launch p = .refused .invalidConfig := by
  simp only [launch, if_neg h]

/-- A reset either restarts the block with the sampled configuration, or is refused. -/
theorem resetBlock_cases (w h : BitVec 16) (s : State) :
    ((sampledParams s.params w h).Valid ∧ resetBlock w h s = .next (s.restarted (sampledParams s.params w h))) ∨
    (¬ (sampledParams s.params w h).Valid ∧ resetBlock w h s = .refused .invalidConfig) := by
  by_cases hv : (sampledParams s.params w h).Valid
  · exact .inl ⟨hv, by rw [resetBlock, launch_of_valid hv]; rfl⟩
  · exact .inr ⟨hv, by rw [resetBlock, launch_of_not_valid hv]⟩

/-- The pixel count fits the 32-bit NPIX register (R22, 92_eei_decisions.md D2). -/
theorem npix_lt (p : Params) : p.npix < 2 ^ 32 := by
  have hw := p.w.isLt
  have hh := p.h.isLt
  calc p.w.toNat * p.h.toNat ≤ (2 ^ 16 - 1) * (2 ^ 16 - 1) := Nat.mul_le_mul (by omega) (by omega)
    _ < 2 ^ 32 := by norm_num

end Sys2Proof.Machine
end

