-- ==== Sys2Proof/Laws/Font.lean ====
section
/-! SUPPORT. Lengths and places of the bits of a rendered mask. -/

namespace Sys2Proof.Machine

/-- In a list of rows of equal width, entry c of row r stands at index width·r + c. -/
theorem getElem?_rows {α : Type} {rows width : Nat} {f : Nat → List α} (hf : ∀ r, (f r).length = width)
    {r c : Nat} (hr : r < rows) (hc : c < width) :
    ((List.range rows).flatMap f)[width * r + c]? = (f r)[c]? := by
  induction rows generalizing r with
  | zero => omega
  | succ n ih =>
    have hlen : ((List.range n).flatMap f).length = n * width := by
      simp [List.length_flatMap, hf]
    rw [List.range_succ, List.flatMap_append, List.flatMap_singleton]
    rcases Nat.lt_or_ge r n with hlt | hge
    · have : width * r + c < n * width := by
        calc width * r + c < width * r + width := by omega
          _ = (r + 1) * width := by ring
          _ ≤ n * width := Nat.mul_le_mul_right _ hlt
      rw [List.getElem?_append_left (by omega), ih hlt]
    · obtain rfl : r = n := by omega
      rw [List.getElem?_append_right (by rw [hlen, Nat.mul_comm]; omega), hlen, Nat.mul_comm r width,
        Nat.add_sub_cancel_left]

theorem length_rows {α : Type} {rows width : Nat} {f : Nat → List α} (hf : ∀ r, (f r).length = width) :
    ((List.range rows).flatMap f).length = rows * width := by
  simp [List.length_flatMap, hf]

@[simp] theorem length_glyphRow (rom : GlyphRom) (d r : Nat) : (glyphRow rom d r).length = 4 := rfl

theorem getElem?_glyphRow (rom : GlyphRom) (d r : Nat) {c : Nat} (hc : c < 4) :
    (glyphRow rom d r)[c]? = some (glyphBit rom d r c) := by
  simp [glyphRow, hc]

theorem length_digitRows (rom : GlyphRom) (digits : List Nat) (r : Nat) :
    (digits.flatMap fun d => glyphRow rom d r).length = 4 * digits.length := by
  induction digits with
  | nil => rfl
  | cons d rest ih => rw [List.flatMap_cons, List.length_append, ih, length_glyphRow, List.length_cons]; omega

/-- Column c of the k-th digit of a row stands at index 4k + c of that row. -/
theorem getElem?_digitRow (rom : GlyphRom) (digits : List Nat) (r : Nat) {k c : Nat} (hk : k < digits.length)
    (hc : c < 4) :
    (digits.flatMap fun d => glyphRow rom d r)[4 * k + c]? = some (glyphBit rom digits[k] r c) := by
  induction digits generalizing k with
  | nil => simp at hk
  | cons d rest ih =>
    rw [List.flatMap_cons]
    cases k with
    | zero =>
      rw [List.getElem?_append_left (by simp; omega)]
      simpa using getElem?_glyphRow rom d r hc
    | succ k =>
      rw [List.getElem?_append_right (by simp; omega), length_glyphRow,
        show 4 * (k + 1) + c - 4 = 4 * k + c by omega, ih (by simpa using hk)]
      rfl

@[simp] theorem length_renderDigits (rom : GlyphRom) (digits : List Nat) :
    (renderDigits rom digits).length = 32 * digits.length := by
  rw [renderDigits, length_rows (width := 4 * digits.length) fun r => length_digitRows rom digits r]
  omega

/-- Where the bits of a render stand: row r, digit k, column c. -/
theorem getElem?_renderDigits (rom : GlyphRom) (digits : List Nat) {r k c : Nat} (hr : r < 8)
    (hk : k < digits.length) (hc : c < 4) :
    (renderDigits rom digits)[4 * digits.length * r + (4 * k + c)]? = some (glyphBit rom digits[k] r c) := by
  rw [renderDigits, getElem?_rows (fun r => length_digitRows rom digits r) hr (by omega),
    getElem?_digitRow rom digits r hk hc]

@[simp] theorem length_render2 (rom : GlyphRom) (d : Nat) : (render2 rom d).length = 64 := by
  simp [render2, digits2]

@[simp] theorem length_render4 (rom : GlyphRom) (d : Nat) : (render4 rom d).length = 128 := by
  simp [render4, digits4]

theorem length_joinHalves (layout : Glyph8Layout) {a b : List Bool} (ha : a.length = 128) (hb : b.length = 128) :
    (joinHalves layout a b).length = 256 := by
  cases layout with
  | flat => simp [joinHalves, ha, hb]
  | rowwise =>
    simp only [joinHalves, List.length_flatMap, List.length_append, List.length_take, List.length_drop, ha, hb]
    decide

@[simp] theorem length_render8 (rom : GlyphRom) (layout : Glyph8Layout) (d : Nat) :
    (render8 rom layout d).length = 256 :=
  length_joinHalves layout (length_render4 _ _) (length_render4 _ _)

/-- A digit command loads its render, or takes the RANGE path. -/
theorem loadDigits_cases (max len : Nat) (render : Nat → List Bool) (d : BitVec 28) (s : State) :
    (d.toNat ≤ max ∧ loadDigits max len render d s = .next (s.setMask (render d.toNat)).complete) ∨
    (max < d.toNat ∧ loadDigits max len render d s = .next ((s.raise .range).drawMask len d).complete) := by
  unfold loadDigits digitOperand
  split
  · exact .inr ⟨‹_›, rfl⟩
  · exact .inl ⟨by omega, rfl⟩

end Sys2Proof.Machine
end

