-- ==== Sys2Proof/Laws/Geometry.lean ====
section
/-! SUPPORT. What one swap and the whole Geometry Mapper do to a list of cells. -/

namespace Sys2Proof.Machine

variable {α β : Type}

/-- A swap is skipped, or it exchanges two entries the list has. -/
theorem swapCells_cases (n : Nat) (l : List α) (ab : Nat × Nat) :
    swapCells n l ab = l ∨
    ∃ x y, ab.1 < n ∧ ab.2 < n ∧ l[ab.1]? = some x ∧ l[ab.2]? = some y ∧
      swapCells n l ab = (l.set ab.1 y).set ab.2 x := by
  unfold swapCells
  split
  · rename_i hab
    split
    · rename_i x y hx hy
      exact .inr ⟨x, y, hab.1, hab.2, hx, hy, rfl⟩
    · exact .inl rfl
    · exact .inl rfl
  · exact .inl rfl

@[simp] theorem length_swapCells (n : Nat) (l : List α) (ab : Nat × Nat) :
    (swapCells n l ab).length = l.length := by
  rcases swapCells_cases n l ab with h | ⟨x, y, -, -, -, -, h⟩ <;> simp [h]

/-- Where both offsets are in range a swap exchanges the two entries and leaves every other one. -/
theorem getElem?_swapCells {n : Nat} {l : List α} {a b : Nat} (hn : n ≤ l.length) (ha : a < n) (hb : b < n)
    (j : Nat) : (swapCells n l (a, b))[j]? = if j = b then l[a]? else if j = a then l[b]? else l[j]? := by
  have ha' : a < l.length := by omega
  have hb' : b < l.length := by omega
  have hstep : swapCells n l (a, b) = (l.set a l[b]).set b l[a] := by
    simp [swapCells, ha, hb, List.getElem?_eq_getElem ha', List.getElem?_eq_getElem hb']
  rw [hstep, List.getElem?_set, List.getElem?_set, List.length_set, List.getElem?_eq_getElem ha',
    List.getElem?_eq_getElem hb', if_pos hb', if_pos ha']
  by_cases hjb : b = j
  · rw [if_pos hjb, if_pos hjb.symm]
  · rw [if_neg hjb, if_neg (Ne.symm hjb)]
    by_cases hja : a = j
    · rw [if_pos hja, if_pos hja.symm]
    · rw [if_neg hja, if_neg (Ne.symm hja)]

/-- A swap with an offset outside 0..n−1 is skipped (R76). -/
theorem swapCells_skipped {n a b : Nat} (l : List α) (h : ¬ (a < n ∧ b < n)) : swapCells n l (a, b) = l := by
  simp [swapCells, h]

theorem perm_swapCells (n : Nat) (l : List α) (ab : Nat × Nat) : (swapCells n l ab).Perm l := by
  rcases swapCells_cases n l ab with h | ⟨x, y, -, -, hx, hy, h⟩
  · rw [h]
  · obtain ⟨ha, rfl⟩ := List.getElem?_eq_some_iff.mp hx
    obtain ⟨hb, rfl⟩ := List.getElem?_eq_some_iff.mp hy
    rw [h]
    exact List.set_set_perm ha hb

theorem map_swapCells (f : α → β) (n : Nat) (l : List α) (ab : Nat × Nat) :
    (swapCells n l ab).map f = swapCells n (l.map f) ab := by
  unfold swapCells
  simp only [List.getElem?_map]
  split
  · cases l[ab.1]? <;> cases l[ab.2]? <;> simp [List.map_set]
  · rfl

@[simp] theorem length_serpCells (p : Params) (l : List α) : (serpCells p l).length = l.length := by
  unfold serpCells
  generalize serpSwaps p = swaps
  induction swaps generalizing l with
  | nil => rfl
  | cons ab rest ih => rw [List.foldl_cons, ih, length_swapCells]

theorem perm_serpCells (p : Params) (l : List α) : (serpCells p l).Perm l := by
  unfold serpCells
  generalize serpSwaps p = swaps
  induction swaps generalizing l with
  | nil => exact .refl l
  | cons ab rest ih => exact (ih _).trans (perm_swapCells _ l ab)

theorem map_serpCells (f : α → β) (p : Params) (l : List α) :
    (serpCells p l).map f = serpCells p (l.map f) := by
  unfold serpCells
  generalize serpSwaps p = swaps
  induction swaps generalizing l with
  | nil => rfl
  | cons ab rest ih => rw [List.foldl_cons, List.foldl_cons, ih, map_swapCells]

theorem serpCells_replicate (p : Params) (n : Nat) (x : α) :
    serpCells p (List.replicate n x) = List.replicate n x :=
  List.eq_replicate_iff.mpr
    ⟨by simp, fun y hy => List.eq_of_mem_replicate ((perm_serpCells p _).mem_iff.mp hy)⟩

/-- The walked starts are the multiples of 2W below N (R76). -/
theorem mem_pairStarts {n w s : Nat} (hw : 0 < w) : s ∈ pairStarts n w ↔ s < n ∧ 2 * w ∣ s := by
  have hpos : 0 < 2 * w := by omega
  simp only [pairStarts, List.mem_map, List.mem_range]
  constructor
  · rintro ⟨j, hj, rfl⟩
    rw [Nat.lt_div_iff_mul_lt hpos] at hj
    exact ⟨by rw [Nat.mul_comm]; omega, Nat.dvd_mul_right _ _⟩
  · rintro ⟨hs, j, rfl⟩
    refine ⟨j, ?_, rfl⟩
    rw [Nat.lt_div_iff_mul_lt hpos, Nat.mul_comm]
    omega

/-! ### Swaps that share no index -/

/-- Two swaps share no index. -/
def SwapsApart (x y : Nat × Nat) : Prop := x.1 ≠ y.1 ∧ x.1 ≠ y.2 ∧ x.2 ≠ y.1 ∧ x.2 ≠ y.2

/-- An entry that no swap in range touches stays. -/
theorem foldl_swapCells_untouched {n : Nat} {swaps : List (Nat × Nat)} {l : List α} {j : Nat} (hn : n ≤ l.length)
    (h : ∀ ab ∈ swaps, ab.1 < n → ab.2 < n → j ≠ ab.1 ∧ j ≠ ab.2) :
    (swaps.foldl (swapCells n) l)[j]? = l[j]? := by
  induction swaps generalizing l with
  | nil => rfl
  | cons ab rest ih =>
    obtain ⟨a, b⟩ := ab
    rw [List.foldl_cons, ih (by simpa using hn) fun x hx => h x (List.mem_cons_of_mem _ hx)]
    by_cases hab : a < n ∧ b < n
    · obtain ⟨hja, hjb⟩ := h (a, b) List.mem_cons_self hab.1 hab.2
      rw [getElem?_swapCells hn hab.1 hab.2, if_neg hjb, if_neg hja]
    · rw [swapCells_skipped l hab]

/-- Among swaps that share no index, one in range exchanges its two entries. -/
theorem foldl_swapCells_swapped {n : Nat} {swaps : List (Nat × Nat)} {l : List α} {a b : Nat} (hn : n ≤ l.length)
    (hd : swaps.Pairwise SwapsApart) (hab : (a, b) ∈ swaps) (ha : a < n) (hb : b < n) :
    (swaps.foldl (swapCells n) l)[a]? = l[b]? ∧ (swaps.foldl (swapCells n) l)[b]? = l[a]? := by
  induction swaps generalizing l with
  | nil => cases hab
  | cons x rest ih =>
    obtain ⟨hx, hrest⟩ := List.pairwise_cons.mp hd
    have hn' : n ≤ (swapCells n l x).length := by simpa using hn
    rw [List.foldl_cons]
    rcases List.mem_cons.mp hab with rfl | hmem
    · have apart := fun y hy (_ : y.1 < n) (_ : y.2 < n) => hx y hy
      rw [foldl_swapCells_untouched hn' fun y hy h1 h2 => ⟨(apart y hy h1 h2).1, (apart y hy h1 h2).2.1⟩,
        foldl_swapCells_untouched hn' fun y hy h1 h2 => ⟨(apart y hy h1 h2).2.2.1, (apart y hy h1 h2).2.2.2⟩,
        getElem?_swapCells hn ha hb, getElem?_swapCells hn ha hb]
      by_cases heq : a = b
      · simp [heq]
      · simp [heq]
    · obtain ⟨h1, h2⟩ := ih hn' hrest hmem
      rw [h1, h2]
      obtain ⟨n1, n2, n3, n4⟩ := hx _ hmem
      by_cases hr : x.1 < n ∧ x.2 < n
      · rw [getElem?_swapCells (a := x.1) (b := x.2) hn hr.1 hr.2, getElem?_swapCells (a := x.1) (b := x.2) hn hr.1 hr.2,
          if_neg (Ne.symm n4), if_neg (Ne.symm n2), if_neg (Ne.symm n3), if_neg (Ne.symm n1)]
        exact ⟨rfl, rfl⟩
      · rw [swapCells_skipped (a := x.1) (b := x.2) l hr]
        exact ⟨rfl, rfl⟩

/-- The base offset as R76 writes it (R13). -/
theorem serpOffset_eq (base : SerpBase) (w : Nat) : serpOffset base w = if base = .even then 0 else w := by
  cases base <;> rfl

/-- The swaps of SERP, each by its row pair and its place in the span (R76). -/
theorem mem_serpSwaps {p : Params} {a b : Nat} (hw : 0 < p.w.toNat) :
    (a, b) ∈ serpSwaps p ↔ ∃ q i, 2 * p.w.toNat * q < p.npix ∧ i < p.h.toNat / 2 ∧
      a = 2 * p.w.toNat * q + serpOffset p.serpBase p.w.toNat + i ∧
      b = 2 * p.w.toNat * q + serpOffset p.serpBase p.w.toNat + p.h.toNat - 1 - i := by
  simp only [serpSwaps, spanSwaps, List.mem_flatMap, List.mem_map, List.mem_range, mem_pairStarts hw, Prod.mk.injEq]
  constructor
  · rintro ⟨s, ⟨hs, q, rfl⟩, i, hi, rfl, rfl⟩
    exact ⟨q, i, hs, hi, rfl, rfl⟩
  · rintro ⟨q, i, hs, hi, rfl, rfl⟩
    exact ⟨_, ⟨hs, q, rfl⟩, i, hi, rfl, rfl⟩

/-- When H ≤ 2·W the swaps of SERP share no index (R77). -/
theorem serpSwaps_apart {p : Params} (hh : p.h.toNat ≤ 2 * p.w.toNat) : (serpSwaps p).Pairwise SwapsApart := by
  unfold serpSwaps pairStarts spanSwaps
  rw [List.flatMap_map, List.pairwise_flatMap]
  refine ⟨fun q _ => ?_, ?_⟩
  · rw [List.pairwise_map]
    refine (List.pairwise_lt_range).imp_of_mem fun {i j} hi hj hij => ?_
    simp only [List.mem_range] at hi hj
    refine ⟨?_, ?_, ?_, ?_⟩ <;> dsimp only <;> omega
  · refine (List.pairwise_lt_range).imp fun {q r} hqr => ?_
    simp only [List.mem_map, List.mem_range]
    rintro x ⟨i, hi, rfl⟩ y ⟨j, hj, rfl⟩
    have hstep : 2 * p.w.toNat * (q + 1) ≤ 2 * p.w.toNat * r := Nat.mul_le_mul_left _ hqr
    rw [Nat.mul_add, Nat.mul_one] at hstep
    refine ⟨?_, ?_, ?_, ?_⟩ <;> dsimp only <;> omega

end Sys2Proof.Machine
end

