-- ==== Sys2Proof/Laws/Exec.lean ====
section
/-! SUPPORT. What a command, an input and a step can do, said once: every next state of a command is one of the
updates below. -/

namespace Sys2Proof.Machine

/-- The one fault of a command, and when it stops: EMIT, exactly where serializing finds an unwritten pixel. -/
theorem execEmit_cases (s : State) :
    (∃ f, s.serialize = .ok f ∧ execEmit s = .next (s.emitFrame f).complete) ∨
    (∃ p, s.serialize = .error p ∧ execEmit s = .fault (.uninitRead p)) := by
  unfold execEmit
  cases h : s.serialize with
  | ok f => exact .inl ⟨f, rfl, rfl⟩
  | error p => exact .inr ⟨p, rfl, rfl⟩

/-- What a word does: it is decoded first, and an illegal one runs no command (R130). -/
theorem runWord_cases (w : Word) (s : State) :
    (∃ i, decode w = .command i ∧ runWord w s = exec i s) ∨
    (∃ c, decode w = .illegal c ∧ runWord w s = .next s.illegalWord) := by
  unfold runWord
  cases h : decode w with
  | command i => exact .inl ⟨i, rfl, rfl⟩
  | illegal c => exact .inr ⟨c, rfl, rfl⟩

theorem step_nil {s : State} (h : s.inbox = []) : step s = .next s := by
  simp only [step, takeInput, h]

theorem step_cons {s : State} {x : Input} {rest : List Input} (h : s.inbox = x :: rest) :
    step s = serve x (s.setInbox rest) := by
  simp only [step, takeInput, h]

/-- A word placed for the next step is the one that step runs. -/
theorem step_withFetchWord (s : State) (nbits w : Nat) :
    step (s.withFetchWord nbits w) = runWord (tableWord nbits w) s := rfl

/-- No command touches the configuration, the parameters or the ports' own lists, and each counts itself once. -/
theorem exec_next_ports {i : Instr} {s t : State} (h : exec i s = .next t) :
    t.params = s.params ∧ t.inbox = s.inbox ∧ t.replies = s.replies ∧ t.k = s.k + 1 := by
  cases i with
  | nop => cases h; simp
  | clear => cases h; simp
  | setcolor r g b => cases h; simp
  | maskclr => cases h; simp
  | maskpush cnt data => cases h; simp
  | composite => cases h; simp
  | serp => cases h; simp
  | glyph2 d =>
    rcases loadDigits_cases 99 64 (render2 s.params.rom) d s with ⟨-, e⟩ | ⟨-, e⟩ <;>
      · rw [exec, execGlyph2, e] at h; cases h; simp
  | glyph4 d =>
    rcases loadDigits_cases 9999 128 (render4 s.params.rom) d s with ⟨-, e⟩ | ⟨-, e⟩ <;>
      · rw [exec, execGlyph4, e] at h; cases h; simp
  | glyph8 d =>
    rcases loadDigits_cases 99999999 256 (render8 s.params.rom s.params.glyph8Layout) d s with ⟨-, e⟩ | ⟨-, e⟩ <;>
      · rw [exec, execGlyph8, e] at h; cases h; simp
  | emit =>
    rcases execEmit_cases s with ⟨f, -, e⟩ | ⟨p, -, e⟩ <;>
      · rw [exec, e] at h; cases h <;> simp
  | fill r g b => cases h; simp
  | clrstat => cases h; simp

/-- No command looks at what the host has still to do. -/
theorem exec_setInbox (i : Instr) (s : State) (l : List Input) :
    exec i (s.setInbox l) = andThen (exec i s) fun t => .next (t.setInbox l) := by
  cases i with
  | nop => rfl
  | clear => rfl
  | setcolor r g b => rfl
  | maskclr => rfl
  | maskpush cnt data => rfl
  | composite => rfl
  | serp => rfl
  | glyph2 d => simp only [exec, execGlyph2, loadDigits]; split <;> rfl
  | glyph4 d => simp only [exec, execGlyph4, loadDigits]; split <;> rfl
  | glyph8 d => simp only [exec, execGlyph8, loadDigits]; split <;> rfl
  | emit =>
    simp only [exec, execEmit, show (s.setInbox l).serialize = s.serialize from rfl]
    cases s.serialize <;> rfl
  | fill r g b => rfl
  | clrstat => rfl

/-- Nor does a word. -/
theorem runWord_setInbox (w : Word) (s : State) (l : List Input) :
    runWord w (s.setInbox l) = andThen (runWord w s) fun t => .next (t.setInbox l) := by
  simp only [runWord]
  cases decode w with
  | command i => exact exec_setInbox i s l
  | illegal c => rfl

end Sys2Proof.Machine
end

