-- ==== Sys2Proof/Laws/PerInstr.lean ====
section
/-! SUPPORT. A property of every command as syntax, one lemma for each constructor: the word of a command carries the
command's opcode (30_encoding.md R56, R63). -/

namespace Sys2Proof.Laws.OpcodeField

/-- word[31:28] of the command's word is its opcode. -/
def Statement (i : Instr) : Prop := opcodeOf (encode i) = i.opcode

theorem nop : Statement .nop := opcodeOf_encodeZ _
theorem clear : Statement .clear := opcodeOf_encodeZ _
theorem setcolor (r g b : Byte) : Statement (.setcolor r g b) := opcodeOf_encodeC _ _ _ _
theorem maskclr : Statement .maskclr := opcodeOf_encodeZ _
theorem maskpush (cnt : BitVec 5) (data : BitVec 16) : Statement (.maskpush cnt data) := opcodeOf_encodeM _ _ _
theorem composite : Statement .composite := opcodeOf_encodeZ _
theorem serp : Statement .serp := opcodeOf_encodeZ _
theorem glyph2 (d : BitVec 28) : Statement (.glyph2 d) := opcodeOf_encodeD _ _
theorem glyph4 (d : BitVec 28) : Statement (.glyph4 d) := opcodeOf_encodeD _ _
theorem glyph8 (d : BitVec 28) : Statement (.glyph8 d) := opcodeOf_encodeD _ _
theorem emit : Statement .emit := opcodeOf_encodeZ _
theorem fill (r g b : Byte) : Statement (.fill r g b) := opcodeOf_encodeC _ _ _ _
theorem clrstat : Statement .clrstat := opcodeOf_encodeZ _

end Sys2Proof.Laws.OpcodeField
end

