-- ==== Sys2Proof/Tests/Slice0.lean ====
section
/-! SUPPORT. Tests of the model, each with an expected result from spec/ (95_test_vectors.md, or the encoding tables of
30_encoding.md), and for each statement with hypotheses a witness that meets them together. -/

namespace Sys2Proof.Tests

open Sys2Proof Sys2Proof.Machine

set_option maxRecDepth 20000

/-! ### Small states -/

/-- The fixture ROM of 95_test_vectors.md, not the source's font: row r of digit d is (d + r) mod 16. -/
def fixtureRom : GlyphRom :=
  #v[#v[0x0#4, 0x1#4, 0x2#4, 0x3#4, 0x4#4, 0x5#4, 0x6#4, 0x7#4],
     #v[0x1#4, 0x2#4, 0x3#4, 0x4#4, 0x5#4, 0x6#4, 0x7#4, 0x8#4],
     #v[0x2#4, 0x3#4, 0x4#4, 0x5#4, 0x6#4, 0x7#4, 0x8#4, 0x9#4],
     #v[0x3#4, 0x4#4, 0x5#4, 0x6#4, 0x7#4, 0x8#4, 0x9#4, 0xA#4],
     #v[0x4#4, 0x5#4, 0x6#4, 0x7#4, 0x8#4, 0x9#4, 0xA#4, 0xB#4],
     #v[0x5#4, 0x6#4, 0x7#4, 0x8#4, 0x9#4, 0xA#4, 0xB#4, 0xC#4],
     #v[0x6#4, 0x7#4, 0x8#4, 0x9#4, 0xA#4, 0xB#4, 0xC#4, 0xD#4],
     #v[0x7#4, 0x8#4, 0x9#4, 0xA#4, 0xB#4, 0xC#4, 0xD#4, 0xE#4],
     #v[0x8#4, 0x9#4, 0xA#4, 0xB#4, 0xC#4, 0xD#4, 0xE#4, 0xF#4],
     #v[0x9#4, 0xA#4, 0xB#4, 0xC#4, 0xD#4, 0xE#4, 0xF#4, 0x0#4]]

/-- The parameters of 95_test_vectors.md: MMAX = 1024, EVEN, FLAT. -/
def grid (w h : BitVec 16) : Params where
  w := w
  h := h
  nmax := 1024#32
  mmax := 1024#32
  rom := fixtureRom
  serpBase := .even
  glyph8Layout := .flat

/-- FreshAfterReset with the given W and H. -/
def blank (w h : BitVec 16) : State := State.fresh (grid w h)

/-- A grey pixel that carries its index. -/
def numbered (p : Nat) : Pixel where
  r := BitVec.ofNat 8 p
  g := BitVec.ofNat 8 p
  b := BitVec.ofNat 8 p

/-- A state whose FB[p] is p for each p < n. -/
def indexed (w h : BitVec 16) (n : Nat) : State :=
  { blank w h with fb := (List.range n).map fun p => some (numbered p) }

/-- One field of the next state, where there is one. -/
def nextOf {α : Type} (f : State → α) (o : Host.Outcome State Fault Refusal) : Option α :=
  match o with
  | .next s => some (f s)
  | .fault _ => none
  | .refused _ => none

/-- The fault, where there is one. -/
def faultOf (o : Host.Outcome State Fault Refusal) : Option Fault :=
  match o with
  | .next _ => none
  | .fault e => some e
  | .refused _ => none

/-- The refusal, where there is one. -/
def refusalOf (o : Host.Outcome State Fault Refusal) : Option Refusal :=
  match o with
  | .next _ => none
  | .fault _ => none
  | .refused r => some r

/-- The red channels of FB, which name the pixels of `indexed`. -/
def reds (s : State) : List (Option Nat) := s.fb.map fun c => c.map fun px => px.r.toNat

/-- The mask as the number its bits write, first bit most significant, as the vectors print a row. -/
def bits (l : List Bool) : Nat := l.foldl (fun n b => 2 * n + b.toNat) 0

/-! ### WellFormed (30_encoding.md R60, R66) -/

theorem test_wellFormed_refuses_count_0 : Instr.wellFormed (.maskpush 0#5 1#16) = false := by decide

theorem test_wellFormed_refuses_count_17_and_31 :
    Instr.wellFormed (.maskpush 17#5 1#16) = false ∧ Instr.wellFormed (.maskpush 31#5 1#16) = false := by decide

theorem test_wellFormed_accepts_counts_1_and_16 :
    Instr.wellFormed (.maskpush 1#5 0xFFFF#16) = true ∧ Instr.wellFormed (.maskpush 16#5 0#16) = true := by decide

theorem test_wellFormed_word_of_ill_formed_is_refused :
    (decode (encode (.maskpush 0#5 1#16))).isCommand = false ∧
      (decode (encode (.maskpush 17#5 1#16))).isCommand = false := by decide

/-! ### Decode: each command's word written out from the encoding tables (30_encoding.md R57 to R63) -/

theorem test_decode_nop : decode 0b0000_0000000000000000000000000000#32 = .command .nop := by decide
theorem test_decode_clear : decode 0b0001_0000000000000000000000000000#32 = .command .clear := by decide
theorem test_decode_setcolor :
    decode 0b0010_0000_00000001_10000000_11111110#32 = .command (.setcolor 1#8 128#8 254#8) := by decide
theorem test_decode_maskclr : decode 0b0011_0000000000000000000000000000#32 = .command .maskclr := by decide
theorem test_decode_maskpush :
    decode 0b0100_0000000_10000_1000000000000011#32 = .command (.maskpush 16#5 0x8003#16) := by decide
theorem test_decode_composite : decode 0b0101_0000000000000000000000000000#32 = .command .composite := by decide
theorem test_decode_serp : decode 0b0110_0000000000000000000000000000#32 = .command .serp := by decide
theorem test_decode_glyph2 : decode 0b0111_0000000000000000000000101010#32 = .command (.glyph2 42#28) := by decide
theorem test_decode_glyph4 : decode 0b1000_0000000000000000010011010010#32 = .command (.glyph4 1234#28) := by decide
theorem test_decode_glyph8 : decode 0b1001_0000101111000110000101001110#32 = .command (.glyph8 12345678#28) := by
  decide
theorem test_decode_emit : decode 0b1010_0000000000000000000000000000#32 = .command .emit := by decide
theorem test_decode_fill :
    decode 0b1011_0000_00010000_00100000_00110000#32 = .command (.fill 0x10#8 0x20#8 0x30#8) := by decide
theorem test_decode_clrstat : decode 0b1100_0000000000000000000000000000#32 = .command .clrstat := by decide

/-- V-K: format Z with operand bits. -/
theorem test_decode_refuses_operand_bits :
    [0x00000001#32, 0x0FFFFFFF#32, 0x10000001#32, 0x30000001#32, 0x50000001#32, 0x60000001#32, 0xA0000001#32,
      0xC0000001#32].map decode = List.replicate 8 (.illegal .reservedField) := by decide

/-- V-K: formats C and M with reserved bits. -/
theorem test_decode_refuses_reserved_fields :
    [0x21000000#32, 0x2F123456#32, 0xB1000000#32, 0x40210001#32].map decode =
      List.replicate 4 (.illegal .reservedField) := by decide

/-- V-K: MASKPUSH counts 0, 17 and 31. -/
theorem test_decode_refuses_counts :
    [0x40000000#32, 0x40110000#32, 0x401F0000#32].map decode = List.replicate 3 (.illegal .countOutOfRange) := by
  decide

/-- V-K: reserved opcodes. -/
theorem test_decode_refuses_reserved_opcodes :
    [0xD0000000#32, 0xE1234567#32, 0xFFFFFFFF#32].map decode = List.replicate 3 (.illegal .reservedOpcode) := by
  decide

/-- R43: a word's bytes, most significant first. -/
theorem test_decodeBytes_most_significant_first :
    decodeBytes [0x40#8, 0x04#8, 0x00#8, 0x05#8, 0x50#8] = .word (.command (.maskpush 4#5 5#16)) [0x50#8] ∧
      decodeBytes [0x40#8, 0x04#8, 0x00#8] = .partialWord := by decide

theorem test_decodeTableWord :
    decodeTableWord 32 0x20FF0080 = some (.setcolor 255#8 0#8 128#8) ∧ decodeTableWord 32 0xD0000000 = none := by
  decide

/-! ### Commands -/

/-- V-K, status vectors: NOP leaves STATUS 0x2; R21: k goes up. -/
theorem test_nop :
    nextOf (fun s => (s.status, s.k)) (exec .nop { blank 2#16 1#16 with status := 2#32, k := 5 }) =
      some (2#32, 6) := by decide

/-- C-1. -/
theorem test_clear :
    nextOf State.fb (exec .clear (indexed 2#16 1#16 2)) =
      some (List.replicate 2 (some { r := 0#8, g := 0#8, b := 0#8 })) := by decide

/-- C-2. -/
theorem test_setcolor :
    nextOf State.color (exec (.setcolor 0x12#8 0x34#8 0x56#8) (blank 2#16 1#16)) = some 0x123456#24 := by decide

/-- C-4. -/
theorem test_maskclr :
    nextOf State.mlen (exec .maskclr { blank 2#16 1#16 with mask := List.replicate 64 true }) = some 0 := by decide

/-- C-6: bits above CNT are ignored; the push appends. -/
theorem test_maskpush :
    nextOf State.mask (exec (.maskpush 4#5 0xFFF5#16) { blank 2#16 1#16 with mask := [false] }) =
      some [false, true, false, true, false] := by decide

/-- C-8: pushes past MMAX are dropped. -/
theorem test_maskpush_full :
    nextOf (fun s => (s.mlen, s.status))
      (exec (.maskpush 16#5 0xFFFF#16) { blank 2#16 1#16 with
        params := { grid 2#16 1#16 with mmax := 256#32 }
        mask := List.replicate 250 false }) = some (256, 0#32) := by decide

/-- C-9: a short mask leaves the pixels past it. -/
theorem test_composite :
    nextOf reds (exec .composite { indexed 4#16 1#16 4 with mask := [true, false, true], color := 0x070605#24 }) =
      some [some 7, some 1, some 7, some 3] := by decide

/-- C-13: on unwritten pixels an empty mask writes nothing; C-10: set bits past N are ignored. -/
theorem test_composite_long_mask :
    nextOf reds (exec .composite { blank 2#16 1#16 with mask := [false, true, true, true], color := 0x070605#24 }) =
      some [none, some 7] := by decide

/-- V-S, 3 × 4, EVEN. -/
theorem test_serp_even :
    nextOf reds (exec .serp (indexed 3#16 4#16 12)) =
      some ([3, 2, 1, 0, 4, 5, 9, 8, 7, 6, 10, 11].map some) := by decide

/-- V-S, 1 × 10, EVEN: overlapping spans, where the order of the swaps matters. -/
theorem test_serp_overlapping :
    nextOf reds (exec .serp (indexed 1#16 10#16 10)) = some ([9, 8, 7, 6, 0, 1, 2, 3, 5, 4].map some) := by decide

/-- V-S, 3 × 4, ODD: the trailing span. -/
theorem test_serp_odd :
    serpCells { grid 3#16 4#16 with serpBase := .odd } (List.range 12) =
      [0, 1, 2, 6, 5, 4, 3, 7, 8, 9, 11, 10] := by decide

/-- V-S: FBW moves with its pixel. -/
theorem test_serp_moves_written_flags :
    nextOf (fun s => (List.range 4).map s.fbw)
      (exec .serp { blank 2#16 2#16 with fb := [some (numbered 1), none, some (numbered 1), some (numbered 1)] }) =
      some [false, true, true, true] := by decide

/-- V-F2, d = 42: rows 0 and 7. -/
theorem test_glyph2 :
    nextOf (fun s => (s.mlen, bits (s.mask.take 8), bits (s.mask.drop 56), s.status))
      (exec (.glyph2 42#28) (blank 8#16 8#16)) = some (64, 0b01000010, 0b10111001, 0#32) := by decide

/-- V-K, status vectors: GLYPH2 100 from STATUS 0x1. -/
theorem test_glyph2_out_of_range :
    nextOf (fun s => (s.mlen, s.status)) (exec (.glyph2 100#28) { blank 8#16 8#16 with status := 1#32 }) =
      some (64, 3#32) := by decide

/-- V-F4, d = 1234: rows 0 and 7. -/
theorem test_glyph4 :
    nextOf (fun s => (s.mlen, bits (s.mask.take 16), bits (s.mask.drop 112), s.status))
      (exec (.glyph4 1234#28) (blank 8#16 8#16)) = some (128, 0b0001001000110100, 0b1000100110101011, 0#32) := by
  decide

/-- V-F4, d = 9999 and d = 10000. -/
theorem test_glyph4_range :
    nextOf State.status (exec (.glyph4 9999#28) (blank 8#16 8#16)) = some 0#32 ∧
      nextOf State.status (exec (.glyph4 10000#28) (blank 8#16 8#16)) = some 2#32 := by decide

/-- V-F8, d = 12345678, FLAT: rows 0 and 8 of 16. -/
theorem test_glyph8_flat :
    nextOf (fun s => (s.mlen, bits (s.mask.take 16), bits ((s.mask.drop 128).take 16), s.status))
      (exec (.glyph8 12345678#28) (blank 8#16 8#16)) = some (256, 0b0001001000110100, 0b0101011001111000, 0#32) := by
  decide

/-- V-F8, d = 12345678, ROWWISE: rows 0 and 7 of 32. -/
theorem test_glyph8_rowwise :
    nextOf (fun s => (bits (s.mask.take 32), bits (s.mask.drop 224)))
      (exec (.glyph8 12345678#28)
        { blank 8#16 8#16 with params := { grid 8#16 8#16 with glyph8Layout := .rowwise } }) =
      some (0b00010010001101000101011001111000, 0b10001001101010111100110111101111) := by decide

/-- O-1. -/
theorem test_emit :
    nextOf State.out (exec .emit { blank 4#16 1#16 with
      fb := [some { r := 255#8, g := 1#8, b := 2#8 }, some black, some { r := 255#8, g := 0#8, b := 0#8 },
        some black] }) =
      some [[0xFF#8, 1#8, 2#8, 0#8, 0#8, 0#8, 0xFF#8, 0#8, 0#8, 0#8, 0#8, 0#8]] := by decide

/-- O-6: the model's fault names the lowest unwritten pixel (R130). -/
theorem test_emit_unwritten :
    faultOf (exec .emit (blank 2#16 1#16)) = some (.uninitRead 0) ∧
      faultOf (exec .emit { blank 3#16 1#16 with fb := [some black, none, none] }) = some (.uninitRead 1) := by decide

/-- O-5: FILL of an unwritten buffer. -/
theorem test_fill :
    nextOf (fun s => (s.out, s.fb)) (exec (.fill 0xFF#8 0x80#8 0#8) (blank 2#16 1#16)) =
      some ([[0xFF#8, 0x80#8, 0#8, 0xFF#8, 0x80#8, 0#8]], [none, none]) := by decide

/-- V-K, status vectors: CLRSTAT from STATUS 0x3. -/
theorem test_clrstat : nextOf State.status (exec .clrstat { blank 2#16 1#16 with status := 3#32 }) = some 0#32 := by
  decide

/-! ### Steps -/

/-- V-K, status vectors: an illegal CLRSTAT word clears nothing, 0xD0000000 sets ILL. -/
theorem test_step_illegal_word :
    nextOf State.status (step ({ blank 2#16 1#16 with status := 2#32 }.withFetchWord 32 0xD0000000)) = some 3#32 ∧
      nextOf State.status (step ({ blank 2#16 1#16 with status := 3#32 }.withFetchWord 32 0xC0000001)) =
        some 3#32 := by decide

/-- The register read vectors of 95_test_vectors.md, for the state that program P4 leaves. -/
theorem test_registers :
    [0#8, 1#8, 2#8, 3#8, 4#8, 5#8, 6#8, 7#8, 0x80#8, 0xFF#8].map
        { State.reset with color := 0x090909#24, mask := [true, true, true] }.readReg =
      [0#32, 0x00040003#32, 0x0000000C#32, 0x00090909#32, 3#32, 0x1000#32, 0x1000#32, 0#32, 0#32, 0#32] := by decide

/-- A reset after which the grid is 2 × 1 (R138). -/
theorem test_reset :
    nextOf (fun s => (s.npix, s.color, s.status, s.fb))
      (step { indexed 3#16 1#16 3 with color := 5#24, status := 3#32, inbox := [.reset 2#16 1#16] }) =
      some (2, 0#24, 0#32, [none, none]) := by decide

/-- R70: one line of assembly, with a hexadecimal operand and a comment. -/
theorem test_assemble :
    assemble ["MASKPUSH 4, 0x5 ; pattern".toList, "EMIT".toList] = some [0x40040005#32, 0xA0000000#32] ∧
      assemble ["SETCOLOR 256, 0, 0".toList] = none := by decide

/-- R72: MASK of 18 bits is two pushes (C-7). -/
theorem test_expandMask :
    (expandMask (true :: List.replicate 15 false ++ [true, true])).map encode =
      [0x30000000#32, 0x40100001#32, 0x40020003#32] := by decide

/-! ### Witnesses: for each statement with hypotheses, inputs that meet them together -/

/-- A written state of a 3 × 4 grid. -/
def full34 : State := { indexed 3#16 4#16 12 with mask := [true, false, true], color := 0x010203#24 }

theorem full34_inv : full34.Inv where
  params := by decide
  memory := by decide
  status := by decide
  frames := by decide

theorem blank34_fresh : FreshAfterReset (blank 3#16 4#16) where
  params := by decide
  color := rfl
  mask := rfl
  cells := by decide
  unwritten := fun p => by
    simp only [blank, State.fresh, State.fbw, State.readPixel, List.getElem?_replicate]
    split <;> rfl
  status := rfl
  out := rfl
  k := rfl

/-- For StepRunsDecodedCommand, WordsRunInIssueOrder and the statements about a step that takes a word. -/
def withWords (ws : List Word) (rest : List Input) (s : State) : State :=
  { s with inbox := ws.map Input.command ++ rest }

theorem witness_DecodeOfEncode :
    Instr.wellFormed (.maskpush 1#5 0#16) = true ∧ Instr.wellFormed (.maskpush 16#5 0xFFFF#16) = true ∧
      Instr.wellFormed (.setcolor 255#8 0#8 255#8) = true ∧
      Instr.wellFormed (.glyph8 268435455#28) = true := by decide

theorem witness_EncodeOfDecode :
    decode 0x4010FFFF#32 = .command (.maskpush 16#5 0xFFFF#16) ∧
      decode 0x7FFFFFFF#32 = .command (.glyph2 268435455#28) := by decide

theorem witness_DecodeMeetsOpcodeMap :
    decode 0x7FFFFFFF#32 = .command (.glyph2 268435455#28) ∧
      (∃ row ∈ opcodeRows, row.admits 0x40010001#32 = true ∧ row.mnemonic = "MASKPUSH" ∧
        countInRange (countOf 0x40010001#32) = true) ∧
      (∃ row ∈ opcodeRows, row.admits 0xB0FFFFFF#32 = true ∧ row.mnemonic ≠ "MASKPUSH") := by
  refine ⟨by decide, ⟨⟨"MASKPUSH", 0xFFE00000#32, 0x40000000#32⟩, ?_, ?_, rfl, ?_⟩,
    ⟨⟨"FILL", 0xFF000000#32, 0xB0000000#32⟩, ?_, ?_, ?_⟩⟩ <;> decide

theorem witness_ReservedOpcodeIsIllegal :
    opcodeOf 0xD0000000#32 = 0xD#4 ∧ opcodeOf 0xE1234567#32 = 0xE#4 ∧ opcodeOf 0xFFFFFFFF#32 = 0xF#4 := by decide

theorem witness_ReservedFieldOrCountIsIllegal :
    (opcodeOf 0x10000001#32 = 0x1#4 ∧ operandOf 0x10000001#32 ≠ 0#28) ∧
      (opcodeOf 0xC8000000#32 = 0xC#4 ∧ operandOf 0xC8000000#32 ≠ 0#28) ∧
      (opcodeOf 0x21000000#32 = 0x2#4 ∧ reservedC 0x21000000#32 ≠ 0#4) ∧
      (opcodeOf 0xBF000000#32 = 0xB#4 ∧ reservedC 0xBF000000#32 ≠ 0#4) ∧
      (opcodeOf 0x40210001#32 = 0x4#4 ∧ reservedM 0x40210001#32 ≠ 0#7) ∧
      (opcodeOf 0x40000000#32 = 0x4#4 ∧ (countOf 0x40000000#32).toNat = 0) ∧
      (opcodeOf 0x40110000#32 = 0x4#4 ∧ 16 < (countOf 0x40110000#32).toNat) := by decide

theorem witness_IgnoredDataBitsHaveNoEffect :
    ∀ j, j < (4#5).toNat → (0xFFF5#16).getLsbD j = (0x0005#16).getLsbD j := by decide

theorem witness_AssemblerReadsWhatDecoderPrints :
    Instr.wellFormed (.maskpush 4#5 0xFFF5#16) = true ∧ Instr.wellFormed (.fill 0#8 255#8 1#8) = true := by decide

theorem witness_StepRunsDecodedCommand :
    (withWords [0x20010203#32] [.read 3#8] (blank 2#16 1#16)).inbox = .command 0x20010203#32 :: [.read 3#8] ∧
      decode 0x20010203#32 = .command (.setcolor 1#8 2#8 3#8) ∧
      Instr.wellFormed (.setcolor 1#8 2#8 3#8) = true := by decide

theorem witness_IllegalWordOnlySetsIll :
    decode 0xD0000000#32 = .illegal .reservedOpcode ∧ decode 0x00000001#32 = .illegal .reservedField ∧
      decode 0x40110000#32 = .illegal .countOutOfRange := by decide

theorem witness_OnlyCommandsAndResetChangeTheBlock :
    (blank 2#16 1#16).inbox = [] ∧
      ∃ t, step { blank 2#16 1#16 with inbox := [.read 4#8] } = .next t ∧
        (∀ w rest, ({ blank 2#16 1#16 with inbox := [.read 4#8] } : State).inbox ≠ .command w :: rest) ∧
        (∀ w h rest, ({ blank 2#16 1#16 with inbox := [.read 4#8] } : State).inbox ≠ .reset w h :: rest) :=
  ⟨rfl, _, rfl, by simp, by simp⟩

/-- The mask may be empty or full; each index of the map, and the first and the last reserved one. -/
theorem witness_RegisterReadMap :
    (blank 2#16 1#16).mask.length ≤ (blank 2#16 1#16).params.mmax.toNat ∧
      ({ blank 2#16 1#16 with mask := List.replicate 1024 true } : State).mask.length ≤ (1024#32).toNat ∧
      7#8 ≤ 7#8 ∧ 7#8 ≤ 255#8 := by
  refine ⟨by decide, ?_, by decide, by decide⟩
  simp

theorem witness_ReadSeesExactlyEarlierCommands :
    ({ blank 2#16 1#16 with inbox := [.read 7#8] } : State).inbox = .read 7#8 :: [] ∧ 7 ≤ (7#8).toNat ∧
      7 ≤ (255#8).toNat ∧
      ∃ s t, s = withWords [0x20010203#32, 0xD0000000#32] [.read 3#8] (blank 2#16 1#16) ∧
        s.inbox = [0x20010203#32, 0xD0000000#32].map Input.command ++ .read 3#8 :: [] ∧
        runWords [0x20010203#32, 0xD0000000#32] { s with inbox := .read 3#8 :: [] } = .next t :=
  ⟨rfl, by decide, by decide, _, _, rfl, rfl, rfl⟩

theorem witness_WordsRunInIssueOrder :
    (withWords [0x10000000#32, 0xA0000000#32] [.reset 1#16 1#16] (blank 2#16 1#16)).inbox =
      [0x10000000#32, 0xA0000000#32].map Input.command ++ [.reset 1#16 1#16] := rfl

theorem witness_CountAdvancesOncePerCommand :
    (∃ s t, s = withWords [0xD0000000#32] [] (blank 2#16 1#16) ∧ s.inbox = .command 0xD0000000#32 :: [] ∧
      step s = .next t) ∧
    (∃ t, step (blank 2#16 1#16) = .next t ∧ (∀ w rest, (blank 2#16 1#16).inbox ≠ .command w :: rest) ∧
      (∀ w h rest, (blank 2#16 1#16).inbox ≠ .reset w h :: rest)) :=
  ⟨⟨_, _, rfl, rfl, rfl⟩, _, rfl, by simp [blank, State.fresh], by simp [blank, State.fresh]⟩

theorem witness_OnlyResetChangesTheGrid :
    (nextOf (fun t => (t.params.w, t.params.h)) (step { blank 3#16 1#16 with inbox := [.reset 2#16 5#16] })) =
      some (2#16, 5#16) ∧
    (nextOf State.k (step (withWords [0#32] [] (blank 3#16 1#16)))) = some 1 := by decide

/-- The largest grid the capacity admits, and the smallest one. -/
theorem witness_ResetPutsEveryElementInItsResetState :
    ({ blank 3#16 1#16 with inbox := [.reset 1024#16 1#16] } : State).inbox = .reset 1024#16 1#16 :: [] ∧
      ({ (blank 3#16 1#16).params with w := 1024#16, h := 1#16 } : Params).Valid ∧
      ({ (blank 3#16 1#16).params with w := 1#16, h := 1#16 } : Params).Valid := by decide

/-- A launch that meets every constraint, and one that breaks each. -/
theorem witness_LaunchConstraints :
    (grid 1#16 1#16).Valid ∧ (grid 1024#16 1#16).Valid ∧ ¬ (grid 0#16 1#16).Valid ∧ ¬ (grid 1#16 0#16).Valid ∧
      ¬ (grid 1025#16 1#16).Valid ∧
      ¬ ({ grid 1#16 1#16 with nmax := 200#32, mmax := 255#32 } : Params).Valid ∧
      ¬ ({ grid 1#16 1#16 with mmax := 1023#32 } : Params).Valid := by decide

theorem witness_InvalidResetIsRefused :
    ({ blank 3#16 1#16 with inbox := [.reset 0#16 1#16] } : State).inbox = .reset 0#16 1#16 :: [] ∧
      ¬ ({ (blank 3#16 1#16).params with w := 0#16, h := 1#16 } : Params).Valid := by decide

theorem witness_InvariantHoldsAfterReset : (grid 3#16 4#16).Valid := by decide

theorem witness_StepKeepsInvariant :
    (withWords [0x60000000#32] [] full34).Inv ∧ ∃ t, step (withWords [0x60000000#32] [] full34) = .next t :=
  ⟨⟨full34_inv.params, full34_inv.memory, full34_inv.status, full34_inv.frames⟩, _, rfl⟩

theorem witness_NopOnlyCounts : opcodeOf 0x00000001#32 = 0x0#4 ∧ operandOf 0x00000001#32 ≠ 0#28 := by decide

theorem witness_ClrstatClearsBothFlags : opcodeOf 0xC0000001#32 = 0xC#4 ∧ operandOf 0xC0000001#32 ≠ 0#28 := by
  decide

/-- A word that raises each flag, CLRSTAT, and a step that takes no word. -/
theorem witness_FlagsAreStickyAndSetOnlyByTheirCause :
    raises 0xD0000000#32 .ill ∧ raises 0x70000064#32 .range ∧ decode 0xC0000000#32 = .command .clrstat ∧
      (∃ t, step (withWords [0x70000064#32] [] (blank 2#16 1#16)) = .next t ∧
        ∀ w h rest, (withWords [0x70000064#32] [] (blank 2#16 1#16)).inbox ≠ .reset w h :: rest) :=
  ⟨by unfold raises; decide, ⟨.glyph2 100#28, by decide, by decide⟩, by decide, _, rfl, by simp [withWords]⟩

theorem witness_OneWordRaisesAtMostOneCondition :
    (∃ t, step (withWords [0x70000064#32] [] (blank 2#16 1#16)) = .next t) ∧
      (withWords [0x70000064#32] [] (blank 2#16 1#16)).ill = false ∧
      (withWords [0x70000064#32] [] (blank 2#16 1#16)).range = false := ⟨⟨_, rfl⟩, by decide, by decide⟩

theorem witness_CommandsWriteOnlyTheirElements :
    (∃ t, exec (.setcolor 1#8 2#8 3#8) full34 = .next t) ∧ (∃ t, exec (.glyph2 99#28) full34 = .next t) ∧
      (∃ t, exec .composite full34 = .next t) ∧ (∃ t, exec .clrstat full34 = .next t) ∧
      (∃ t, exec .emit full34 = .next t) ∧ Instr.outOfRange (.glyph2 99#28) = false :=
  ⟨⟨_, rfl⟩, ⟨_, rfl⟩, ⟨_, rfl⟩, ⟨_, rfl⟩, ⟨_, rfl⟩, by decide⟩

theorem witness_OnlyEmitCanStop :
    Instr.nop ≠ .emit ∧ exec .emit (blank 2#16 1#16) = .fault (.uninitRead 0) := ⟨by decide, rfl⟩

/-- A digit command at the end of its range. -/
theorem witness_IdempotentCommands :
    Instr.outOfRange (.glyph2 99#28) = false ∧ Instr.outOfRange .composite = false ∧
      (∃ t u, exec (.glyph2 99#28) full34 = .next t ∧ exec (.glyph2 99#28) t = .next u) ∧
      (∃ t u, exec .composite full34 = .next t ∧ exec .composite t = .next u) :=
  ⟨by decide, by decide, ⟨_, _, rfl, rfl⟩, ⟨_, _, rfl, rfl⟩⟩

theorem witness_SetcolorLoadsColor : opcodeOf 0x21000000#32 = 0x2#4 ∧ reservedC 0x21000000#32 ≠ 0#4 := by decide

theorem witness_MaskpushAppendsBits :
    (1 ≤ (1#5).toNat ∧ (1#5).toNat ≤ 16) ∧ (1 ≤ (16#5).toNat ∧ (16#5).toNat ≤ 16) ∧
      (opcodeOf 0x401F0000#32 = 0x4#4 ∧ 16 < (countOf 0x401F0000#32).toNat) := by decide

theorem witness_DroppedPushesChangeNoFrame :
    ({ full34 with mask := List.replicate 1024 true } : State).mask.length = full34.params.mmax.toNat ∧
      full34.params.Valid ∧ full34.mask.length ≤ full34.params.mmax.toNat ∧
      (∃ t, exec (.maskpush 16#5 1#16) full34 = .next t) ∧ 0 < full34.npix ∧ 11 < full34.npix :=
  ⟨by simp [full34, blank, indexed, State.fresh, grid], by decide, by decide, ⟨_, rfl⟩, by decide, by decide⟩

/-- The first pixel is selected, the second and the last are not. -/
theorem witness_CompositePaintsSelectedPixels :
    full34.fb.length = full34.npix ∧ full34.mask[0]? = some true ∧ full34.mask[1]? ≠ some true ∧
      full34.mask[11]? ≠ some true ∧ 11 < full34.npix := by decide

theorem witness_LastLayerWins : full34.fb.length = full34.npix ∧ 0 < full34.npix := by decide

theorem witness_SendFrameEmitsSerpentineOfLayers : full34.Inv := full34_inv

/-- A written state of a 3 × 4 grid with SERP_BASE = ODD. -/
def odd34 : State := { full34 with params := { grid 3#16 4#16 with serpBase := .odd } }

theorem witness_SerpIsItsPseudocode :
    (1 ≤ full34.params.w.toNat ∧ full34.npix < 13 ∧ full34.params.serpBase = .even) ∧
      (1 ≤ odd34.params.w.toNat ∧ odd34.npix < 13 ∧ odd34.params.serpBase = .odd) ∧ [0, 1, 2, 3].length = 4 ∧ 0 < 4 ∧ 3 < 4 ∧ 4 ≤ 4 := by decide

/-- H between W and 2W, for EVEN and for ODD, and H = 2W. -/
theorem witness_SerpMirrorsDisjointSpans :
    (1 ≤ full34.params.w.toNat ∧ full34.params.h.toNat ≤ 2 * full34.params.w.toNat ∧
      full34.fb.length = full34.npix ∧ 11 < full34.npix) ∧
    (1 ≤ odd34.params.w.toNat ∧ odd34.params.h.toNat ≤ 2 * odd34.params.w.toNat ∧
      odd34.fb.length = odd34.npix ∧ odd34.params.serpBase = .odd) ∧
    (1 ≤ (indexed 2#16 4#16 8).params.w.toNat ∧
      (indexed 2#16 4#16 8).params.h.toNat ≤ 2 * (indexed 2#16 4#16 8).params.w.toNat ∧
      (indexed 2#16 4#16 8).fb.length = (indexed 2#16 4#16 8).npix) := by decide

theorem witness_SerpDegenerateHeights :
    (indexed 4#16 1#16 4).params.h.toNat = 1 ∧ (3 % 2 = 1 ∧ (6, 8) ∈ spanSwaps 3 6) ∧ 1 ≤ 1 ∧
      6 ∈ pairStarts 9 3 := by decide

theorem witness_SerpTwiceRestoresDisjointSpans :
    (1 ≤ full34.params.w.toNat ∧ full34.params.h.toNat ≤ 2 * full34.params.w.toNat ∧
      full34.fb.length = full34.npix ∧ ∃ t u, exec .serp full34 = .next t ∧ exec .serp t = .next u) ∧
    ((grid 1#16 10#16).w = 1#16 ∧ (grid 1#16 10#16).h = 10#16 ∧ (grid 1#16 10#16).serpBase = .even) :=
  ⟨⟨by decide, by decide, by decide, _, _, rfl, rfl⟩, by decide⟩

theorem witness_SerpPermutesPixels :
    (∃ t, exec .serp full34 = .next t) ∧
      (blank 1#16 10#16).fb = List.replicate (blank 1#16 10#16).npix none := ⟨⟨_, rfl⟩, by decide⟩

theorem witness_SquareGridIsTrueSerpentine :
    (indexed 3#16 3#16 9).params.serpBase = .even ∧
      (indexed 3#16 3#16 9).params.h = (indexed 3#16 3#16 9).params.w ∧
      (indexed 3#16 3#16 9).fb.length = (indexed 3#16 3#16 9).npix ∧ 2 < (3#16).toNat := by decide

theorem witness_GlyphColumnsReadLeftToRight : 0 < 4 ∧ 3 < 4 := by decide

theorem witness_DecimalDecomposition :
    0 ≤ 99 ∧ 99 ≤ 99 ∧ 9999 ≤ 9999 ∧ 99999999 ≤ 99999999 := by decide

theorem witness_Glyph2LoadsTwoDigits :
    (0#28).toNat ≤ 99 ∧ (99#28).toNat ≤ 99 ∧ 99 < (100#28).toNat ∧ 99 < (268435455#28).toNat := by decide

theorem witness_Glyph4LoadsFourDigits :
    (0#28).toNat ≤ 9999 ∧ (9999#28).toNat ≤ 9999 ∧ 9999 < (10000#28).toNat ∧ 9999 < (268435455#28).toNat := by decide

theorem witness_Glyph8JoinsTwoRenders :
    (99999999#28).toNat ≤ 99999999 ∧ 99999999 < (100000000#28).toNat ∧ full34.params.glyph8Layout = .flat ∧
      ({ full34 with params := { grid 3#16 4#16 with glyph8Layout := .rowwise } } : State).params.glyph8Layout =
        .rowwise := by decide

/-- The first operand out of range of each digit command. -/
theorem witness_RangeWordSetsFlagAndMaskLength :
    raises 0x70000064#32 .range ∧ raises 0x80002710#32 .range ∧ raises 0x95F5E100#32 .range ∧
      (withWords [0x70000064#32] [] full34).inbox = .command 0x70000064#32 :: [] :=
  ⟨⟨.glyph2 100#28, by decide, by decide⟩, ⟨.glyph4 10000#28, by decide, by decide⟩,
    ⟨.glyph8 100000000#28, by decide, by decide⟩, rfl⟩

theorem witness_LayoutsAgreeOnlyAtTheEnds :
    (render4 fixtureRom 1234).length = 128 ∧ (render4 fixtureRom 5678).length = 128 ∧ 255 < 256 :=
  ⟨length_render4 _ _, length_render4 _ _, by decide⟩

theorem witness_CountersStayInRange :
    full34.Inv ∧ expandCounter8 100000000 1#8 2#8 3#8 ∈
      [expandCounter2 100 1#8 2#8 3#8, expandCounter4 10000 1#8 2#8 3#8, expandCounter8 100000000 1#8 2#8 3#8] :=
  ⟨full34_inv, by simp⟩

/-- Three pixels of which only the first is written. -/
def holed : State := { blank 3#16 1#16 with fb := [some black, none, none] }

/-- A written buffer, the last byte of its frame, and a buffer whose second pixel is the lowest unwritten one. -/
theorem witness_EmitSerializesBuffer :
    (∀ p, p < full34.npix → full34.fbw p = true) ∧
      (35 < 3 * full34.npix ∧ full34.readPixel (35 / 3) = some (numbered 11)) ∧
      (1 < holed.npix ∧ holed.fbw 1 = false ∧ ∀ q, q < 1 → holed.fbw q = true) := by decide

theorem witness_EmitTwiceSendsTheSameFrame : ∃ t, exec .emit full34 = .next t := ⟨_, rfl⟩

theorem witness_FillSendsUniformFrame : opcodeOf 0xB1000000#32 = 0xB#4 ∧ reservedC 0xB1000000#32 ≠ 0#4 := by decide

/-- A grid of the same size, painted all over. -/
def painted34 : State := { full34 with fb := List.replicate 12 (some { r := 1#8, g := 2#8, b := 3#8 }) }

theorem witness_FillEqualsEmitOfPaintedBuffer :
    painted34.npix = full34.npix ∧
      painted34.fb = List.replicate painted34.npix (some { r := 1#8, g := 2#8, b := 3#8 }) := by decide

theorem witness_ClearBeforeTheFirstEmit : FreshAfterReset (blank 3#16 4#16) := blank34_fresh

end Sys2Proof.Tests
end

section
/-! PROOFS. The state after reset (70_reset_and_hazards.md R138, R144). -/

namespace Sys2Proof.Machine

/-- A pixel of a buffer that holds no value anywhere is not written. -/
theorem State.fbw_of_fb_replicate_none {s : State} {n : Nat} (h : s.fb = List.replicate n none) (q : Nat) :
    s.fbw q = false := by
  rw [State.fbw, State.readPixel, h, List.getElem?_replicate]
  split <;> rfl

/-- A valid launch leaves a state after reset (R138, R141). -/
theorem freshAfterReset_fresh {p : Params} (hp : p.Valid) : FreshAfterReset (State.fresh p) where
  params := hp
  color := rfl
  mask := rfl
  cells := by simp
  unwritten := State.fbw_of_fb_replicate_none (State.fresh_fb p)
  status := rfl
  out := rfl
  k := rfl

/-- The launch of `State.reset` meets the constraints of R141. -/
theorem launch_valid : Config.launch.Valid := by decide

/-- Settles O22: `State.reset` is the fresh state of a valid launch. -/
theorem resetStateIsFreshAfterReset : Obligations.ResetStateIsFreshAfterReset :=
  ⟨freshAfterReset_fresh launch_valid, rfl, rfl⟩

end Sys2Proof.Machine
end

section
/-! PROOFS. SERP in closed form where the spans are disjoint (40_geometry.md R76, R77). -/

namespace Sys2Proof.Machine

variable {p : Params}

/-- `serpSource` at entry i of span q: the mirror entry, where that is a pixel. -/
theorem serpSource_of_mem_span {off q i : Nat} (hh : p.h.toNat ≤ 2 * p.w.toNat) (hi : i < p.h.toNat)
    (hm : 2 * p.w.toNat * q + off + p.h.toNat - 1 - i < p.npix) :
    serpSource p off (2 * p.w.toNat * q + off + i) = 2 * p.w.toNat * q + off + p.h.toNat - 1 - i := by
  have hq : (2 * p.w.toNat * q + off + i - off) / (2 * p.w.toNat) = q := by
    rw [show 2 * p.w.toNat * q + off + i - off = i + 2 * p.w.toNat * q by omega,
      Nat.add_mul_div_left _ _ (by omega), Nat.div_eq_of_lt (by omega), Nat.zero_add]
  unfold serpSource
  simp only [hq]
  rw [if_pos ⟨by omega, by omega, by omega⟩]
  omega

/-- A swap of SERP has its lower index first. -/
theorem serpSwaps_lt {a b : Nat} (hw : 0 < p.w.toNat) (hab : (a, b) ∈ serpSwaps p) : a < b := by
  obtain ⟨q, i, -, hi, rfl, rfl⟩ := (mem_serpSwaps hw).mp hab
  omega

/-- The two entries of a swap in range are each other's source. -/
theorem serpSource_of_mem_serpSwaps {a b : Nat} (hw : 0 < p.w.toNat) (hh : p.h.toNat ≤ 2 * p.w.toNat)
    (hab : (a, b) ∈ serpSwaps p) (ha : a < p.npix) (hb : b < p.npix) :
    serpSource p (serpOffset p.serpBase p.w.toNat) a = b ∧
      serpSource p (serpOffset p.serpBase p.w.toNat) b = a := by
  obtain ⟨q, i, -, hi, rfl, rfl⟩ := (mem_serpSwaps hw).mp hab
  generalize serpOffset p.serpBase p.w.toNat = off at ha hb ⊢
  refine ⟨serpSource_of_mem_span hh (by omega) hb, ?_⟩
  have hmirror := serpSource_of_mem_span (off := off) (q := q) (i := p.h.toNat - 1 - i) hh (by omega) (by omega)
  rwa [show 2 * p.w.toNat * q + off + (p.h.toNat - 1 - i) = 2 * p.w.toNat * q + off + p.h.toNat - 1 - i by omega,
    show 2 * p.w.toNat * q + off + p.h.toNat - 1 - (p.h.toNat - 1 - i) = 2 * p.w.toNat * q + off + i by omega]
    at hmirror

/-- An index whose source is another one is exchanged with it by a swap in range. -/
theorem mem_serpSwaps_of_serpSource_ne {j : Nat} (hw : 0 < p.w.toNat)
    (hne : serpSource p (serpOffset p.serpBase p.w.toNat) j ≠ j) :
    serpSource p (serpOffset p.serpBase p.w.toNat) j < p.npix ∧
      ((j, serpSource p (serpOffset p.serpBase p.w.toNat) j) ∈ serpSwaps p ∨
       (serpSource p (serpOffset p.serpBase p.w.toNat) j, j) ∈ serpSwaps p) := by
  simp only [mem_serpSwaps hw]
  generalize serpOffset p.serpBase p.w.toNat = off at hne ⊢
  unfold serpSource at hne ⊢
  have hbase := Nat.mul_div_le (j - off) (2 * p.w.toNat)
  generalize (j - off) / (2 * p.w.toNat) = q at hne hbase ⊢
  dsimp only at hne ⊢
  split at hne
  · rename_i hspan
    obtain ⟨hoff, hin, hpix⟩ := hspan
    rw [if_pos ⟨hoff, hin, hpix⟩]
    refine ⟨hpix, ?_⟩
    rcases Nat.lt_or_ge (j - (off + 2 * p.w.toNat * q)) (p.h.toNat / 2) with hlow | hhigh
    · exact .inl ⟨q, j - (off + 2 * p.w.toNat * q), by omega, hlow, by omega, by omega⟩
    · exact .inr ⟨q, p.h.toNat - 1 - (j - (off + 2 * p.w.toNat * q)), by omega, by omega, by omega, by omega⟩
  · exact absurd rfl hne

/-- Where the spans are disjoint, SERP puts at every pixel the one at its source (R76, R77). -/
theorem getElem?_serpCells {α : Type} {l : List α} {j : Nat} (hw : 0 < p.w.toNat)
    (hh : p.h.toNat ≤ 2 * p.w.toNat) (hl : p.npix ≤ l.length) (hj : j < p.npix) :
    (serpCells p l)[j]? = l[serpSource p (serpOffset p.serpBase p.w.toNat) j]? := by
  by_cases hfix : serpSource p (serpOffset p.serpBase p.w.toNat) j = j
  · rw [hfix]
    refine foldl_swapCells_untouched hl fun ab hab ha hb => ?_
    obtain ⟨hsrc₁, hsrc₂⟩ := serpSource_of_mem_serpSwaps hw hh hab ha hb
    have hlt := serpSwaps_lt hw hab
    exact ⟨by rintro rfl; omega, by rintro rfl; omega⟩
  · obtain ⟨hsrc, hmem | hmem⟩ := mem_serpSwaps_of_serpSource_ne hw hfix
    · exact (foldl_swapCells_swapped hl (serpSwaps_apart hh) hmem hj hsrc).1
    · exact (foldl_swapCells_swapped hl (serpSwaps_apart hh) hmem hsrc hj).2

/-- Settles O42: disjoint swaps act in one stroke, each pixel taking its source's value. -/
theorem serpMirrorsDisjointSpans : Obligations.SerpMirrorsDisjointSpans := by
  unfold Obligations.SerpMirrorsDisjointSpans
  intro s hw hh hlen
  refine ⟨serpCells s.params s.fb, rfl, by rw [length_serpCells, hlen], fun j hj => ?_⟩
  rw [← serpOffset_eq]
  exact getElem?_serpCells hw hh hlen.ge hj

end Sys2Proof.Machine
end

section
/-! PROOFS. What a command can write and what a step can do, each said once (10_state.md R34, 20_memory.md R49). -/

namespace Sys2Proof.Machine

variable {s t : State}

/-- The commands whose row of the write table has an entry under MASK (R34). -/
def MaskWriter (i : Instr) : Prop :=
  i = .maskclr ∨ (∃ cnt data, i = .maskpush cnt data) ∨ ∃ d, i = .glyph2 d ∨ i = .glyph4 d ∨ i = .glyph8 d

/-- The write table of R34, a constructor for each pattern of written elements: the next states of a command, with the
size of what it writes. -/
inductive Writes (s : State) : Instr → State → Prop where
  | nothing : Writes s .nop s.complete
  | color (r g b : Byte) : Writes s (.setcolor r g b) (s.setColor (packColor r g b)).complete
  | mask {i : Instr} {m : List Bool} (hi : MaskWriter i)
      (hm : m.length ≤ max (max s.mask.length s.params.mmax.toNat) 256) : Writes s i (s.setMask m).complete
  | drawnMask {i : Instr} {len : Nat} (d : BitVec 28) (hi : MaskWriter i) (hr : Instr.outOfRange i = true)
      (hlen : len ≤ 256) : Writes s i ((s.raise .range).drawMask len d).complete
  | fb {i : Instr} {fb : List (Option Pixel)} (hi : i = .clear ∨ i = .composite ∨ i = .serp)
      (hfb : fb.length = s.npix ∨ fb.length = s.fb.length) : Writes s i (s.setFb fb).complete
  | out {i : Instr} {f : Frame} (hi : i = .emit ∨ ∃ r g b, i = .fill r g b) (hf : f.length = 3 * s.npix) :
      Writes s i (s.emitFrame f).complete
  | status : Writes s .clrstat s.clearFlags.complete

/-- A digit command writes a mask of at most 256 bits, and raises RANGE only above its range. -/
theorem writes_of_loadDigits {i : Instr} {max len : Nat} {render : Nat → List Bool} {d : BitVec 28}
    (hi : MaskWriter i) (hr : Instr.outOfRange i = decide (max < d.toNat)) (hlen : len ≤ 256)
    (hrender : ∀ n, (render n).length = len) (h : loadDigits max len render d s = .next t) : Writes s i t := by
  rcases loadDigits_cases max len render d s with ⟨-, e⟩ | ⟨hd, e⟩ <;> cases e.symm.trans h
  · exact .mask hi ((hrender _).trans_le (le_max_of_le_right hlen))
  · exact .drawnMask d hi (hr.trans (decide_eq_true hd)) hlen

/-- Every next state of a command is one the write table allows. -/
theorem writes_of_exec {i : Instr} (h : exec i s = .next t) : Writes s i t := by
  cases i with
  | nop => cases h; exact .nothing
  | clear => cases h; exact .fb (by simp) (.inl (length_clearedCells _))
  | setcolor r g b => cases h; exact .color r g b
  | maskclr => cases h; exact .mask (by simp [MaskWriter]) (Nat.zero_le _)
  | maskpush cnt data =>
    cases h
    refine .mask (by simp [MaskWriter]) ?_
    rw [pushBits_eq, List.length_append, List.length_take]
    omega
  | composite => cases h; exact .fb (by simp) (.inr (length_paintCells ..))
  | serp => cases h; exact .fb (by simp) (.inr (length_serpCells ..))
  | glyph2 d => exact writes_of_loadDigits (by simp [MaskWriter]) rfl (by decide) (length_render2 _) h
  | glyph4 d => exact writes_of_loadDigits (by simp [MaskWriter]) rfl (by decide) (length_render4 _) h
  | glyph8 d => exact writes_of_loadDigits (by simp [MaskWriter]) rfl (by decide) (length_render8 _ _) h
  | emit =>
    rcases execEmit_cases s with ⟨f, hf, e⟩ | ⟨p, -, e⟩ <;> cases e.symm.trans h
    exact .out (by simp) (length_of_serializeFrom hf)
  | fill r g b => cases h; exact .out (by simp) (length_uniformFrame ..)
  | clrstat => cases h; exact .status

/-- What a step can do: wait, run a word, answer a read, or restart the block. -/
theorem step_next_cases (h : step s = .next t) :
    (s.inbox = [] ∧ t = s) ∨
    (∃ w rest, s.inbox = .command w :: rest ∧ runWord w (s.setInbox rest) = .next t) ∨
    (∃ i rest, s.inbox = .read i :: rest ∧ t = (s.setInbox rest).reply i (s.readReg i)) ∨
    (∃ w v rest, s.inbox = .reset w v :: rest ∧ (sampledParams s.params w v).Valid ∧
      t = (s.setInbox rest).restarted (sampledParams s.params w v)) := by
  cases hin : s.inbox with
  | nil => cases (step_nil hin).symm.trans h; exact .inl ⟨rfl, rfl⟩
  | cons x rest =>
    rw [step_cons hin] at h
    cases x with
    | command w => exact .inr (.inl ⟨w, rest, rfl, h⟩)
    | read i => cases h; exact .inr (.inr (.inl ⟨i, rest, rfl, rfl⟩))
    | reset w v =>
      rcases resetBlock_cases w v (s.setInbox rest) with ⟨hv, e⟩ | ⟨-, e⟩ <;> cases e.symm.trans h
      exact .inr (.inr (.inr ⟨w, v, rest, rfl, hv, rfl⟩))

/-- A word that completes, legal or not, leaves the host's later inputs alone and is counted once (R21). -/
theorem runWord_next_ports {w : Word} (h : runWord w s = .next t) : t.inbox = s.inbox ∧ t.k = s.k + 1 := by
  rcases runWord_cases w s with ⟨i, -, e⟩ | ⟨c, -, e⟩
  · obtain ⟨-, hinbox, -, hk⟩ := exec_next_ports (e.symm.trans h)
    exact ⟨hinbox, hk⟩
  · cases e.symm.trans h
    exact ⟨rfl, rfl⟩

end Sys2Proof.Machine
end

section
/-! PROOFS. The invariant of a step (10_state.md R24, R26, R29; 43_output.md R115; 70_reset_and_hazards.md R141): one
rule for each update of the state, then commands, words and steps. -/

namespace Sys2Proof.Machine

variable {s t : State}

/-! ### STATUS bits 31:2 -/

theorem reserved_statusWith {v : BitVec 32} (c : Condition) (h : v &&& ~~~3#32 = 0#32) :
    statusWith v c &&& ~~~3#32 = 0#32 := by
  have hflag : (1#32 <<< c.code) &&& ~~~3#32 = 0#32 := by cases c <;> decide
  rw [statusWith, BitVec.and_or_distrib_right, h, hflag, BitVec.or_zero]

theorem reserved_statusCleared {v : BitVec 32} (h : v &&& ~~~3#32 = 0#32) :
    statusCleared v &&& ~~~3#32 = 0#32 := by
  rw [statusCleared, h, BitVec.zero_and]

/-! ### One rule for each update -/

theorem State.Inv.complete (hs : s.Inv) : s.complete.Inv :=
  ⟨hs.params, hs.memory, hs.status, hs.frames⟩

theorem State.Inv.setInbox (hs : s.Inv) (l : List Input) : (s.setInbox l).Inv :=
  ⟨hs.params, hs.memory, hs.status, hs.frames⟩

theorem State.Inv.reply (hs : s.Inv) (i : BitVec 8) (v : Word) : (s.reply i v).Inv :=
  ⟨hs.params, hs.memory, hs.status, hs.frames⟩

theorem State.Inv.setColor (hs : s.Inv) (c : BitVec 24) : (s.setColor c).Inv :=
  ⟨hs.params, hs.memory, hs.status, hs.frames⟩

theorem State.Inv.setMask (hs : s.Inv) {m : List Bool} (hm : m.length ≤ s.params.mmax.toNat) : (s.setMask m).Inv :=
  ⟨hs.params, ⟨hs.memory.1, hm⟩, hs.status, hs.frames⟩

theorem State.Inv.drawMask (hs : s.Inv) {len : Nat} (d : BitVec 28) (hlen : len ≤ s.params.mmax.toNat) :
    (s.drawMask len d).Inv :=
  ⟨hs.params, ⟨hs.memory.1, by simpa using hlen⟩, hs.status, hs.frames⟩

theorem State.Inv.setFb (hs : s.Inv) {fb : List (Option Pixel)} (hfb : fb.length = s.npix) : (s.setFb fb).Inv :=
  ⟨hs.params, ⟨hfb, hs.memory.2⟩, hs.status, hs.frames⟩

theorem State.Inv.raise (hs : s.Inv) (c : Condition) : (s.raise c).Inv :=
  ⟨hs.params, hs.memory, reserved_statusWith c hs.status, hs.frames⟩

theorem State.Inv.clearFlags (hs : s.Inv) : s.clearFlags.Inv :=
  ⟨hs.params, hs.memory, reserved_statusCleared hs.status, hs.frames⟩

theorem State.Inv.emitFrame (hs : s.Inv) {f : Frame} (hf : f.length = 3 * s.npix) : (s.emitFrame f).Inv where
  params := hs.params
  memory := hs.memory
  status := hs.status
  frames g hg := by
    rcases List.mem_append.mp hg with hold | hnew
    · exact hs.frames g hold
    · rwa [List.mem_singleton.mp hnew]

/-- A restart with valid parameters establishes the invariant, whatever held before. -/
theorem inv_restarted (s : State) {p : Params} (hp : p.Valid) : (s.restarted p).Inv where
  params := hp
  memory := ⟨List.length_replicate, Nat.zero_le _⟩
  status := BitVec.zero_and
  frames := by simp

/-! ### Commands, words, steps -/

/-- What the write table allows keeps the invariant. The 256 bits of the longest render fit MMAX (R141). -/
theorem State.Inv.writes (hs : s.Inv) {i : Instr} (h : Writes s i t) : t.Inv := by
  obtain ⟨-, -, -, -, hcap⟩ := hs.params
  obtain ⟨hcells, hmask⟩ := hs.memory
  cases h with
  | nothing => exact hs.complete
  | color r g b => exact (hs.setColor _).complete
  | mask hi hm => exact (hs.setMask (hm.trans (max_le (max_le hmask le_rfl) hcap))).complete
  | drawnMask d hi hr hlen => exact ((hs.raise .range).drawMask d (hlen.trans hcap)).complete
  | fb hi hfb => exact (hs.setFb (hfb.elim id (·.trans hcells))).complete
  | out hi hf => exact (hs.emitFrame hf).complete
  | status => exact hs.clearFlags.complete

theorem State.Inv.runWord (hs : s.Inv) {w : Word} (h : runWord w s = .next t) : t.Inv := by
  rcases runWord_cases w s with ⟨i, -, e⟩ | ⟨c, -, e⟩
  · exact hs.writes (writes_of_exec (e.symm.trans h))
  · cases e.symm.trans h
    exact (hs.raise .ill).complete

/-- Settles O24: by the four things a step can do. -/
theorem stepKeepsInvariant : Obligations.StepKeepsInvariant := by
  unfold Obligations.StepKeepsInvariant
  intro s t hs h
  rcases step_next_cases h with ⟨-, rfl⟩ | ⟨w, rest, -, hw⟩ | ⟨i, rest, -, rfl⟩ | ⟨w, v, rest, -, hv, rfl⟩
  · exact hs
  · exact (hs.setInbox rest).runWord hw
  · exact (hs.setInbox rest).reply i _
  · exact inv_restarted _ hv

end Sys2Proof.Machine
end

section
/-! PROOFS. The elements a command leaves alone, and the count k (10_state.md R21, R34). -/

namespace Sys2Proof.Machine

/-- Settles O29: row by row of the write table. -/
theorem commandsWriteOnlyTheirElements : Obligations.CommandsWriteOnlyTheirElements := by
  unfold Obligations.CommandsWriteOnlyTheirElements
  intro i s t h
  obtain ⟨hparams, hinbox, hreplies, -⟩ := exec_next_ports h
  refine ⟨hparams, hinbox, hreplies, ?_⟩
  cases writes_of_exec h with
  | nothing => simp
  | color r g b => simp
  | mask hi hm =>
    exact ⟨fun _ => rfl, fun hn => absurd hi (by simp [MaskWriter, hn]), fun _ => rfl, fun _ => rfl, fun _ => rfl⟩
  | drawnMask d hi hr hlen =>
    exact ⟨fun _ => rfl, fun hn => absurd hi (by simp [MaskWriter, hn]), fun _ => rfl, fun hn => by simp [hr] at hn,
      fun _ => rfl⟩
  | fb hi hfb => exact ⟨fun _ => rfl, fun _ => rfl, fun hn => absurd hi (by simp [hn]), fun _ => rfl, fun _ => rfl⟩
  | out hi hf => exact ⟨fun _ => rfl, fun _ => rfl, fun _ => rfl, fun _ => rfl, fun hn => absurd hi (by simp [hn])⟩
  | status => simp

/-- Settles O17: a word that completes is counted once, a waiting step and a read are not, and no index reads k. -/
theorem countAdvancesOncePerCommand : Obligations.CountAdvancesOncePerCommand := by
  unfold Obligations.CountAdvancesOncePerCommand
  refine ⟨State.fresh_k, fun s t w rest hin h => ?_, fun s t h hcommand hreset => ?_, fun s n i => rfl⟩
  · exact (runWord_next_ports ((step_cons hin).symm.trans h)).2
  · rcases step_next_cases h with ⟨-, rfl⟩ | ⟨w, rest, hin, -⟩ | ⟨i, rest, -, rfl⟩ | ⟨w, v, rest, hin, -⟩
    · rfl
    · exact absurd hin (hcommand w rest)
    · rfl
    · exact absurd hin (hreset w v rest)

end Sys2Proof.Machine
end

section
/-! PROOFS. The register read port (10_state.md R32, R33). -/

namespace Sys2Proof.Machine

/-! ### The value at each index -/

theorem readReg_status (s : State) : s.readReg 0#8 = statusShown s.status := rfl

theorem readReg_geom (s : State) : s.readReg 1#8 = s.params.h ++ s.params.w := rfl

theorem readReg_color (s : State) : s.readReg 3#8 = 0#8 ++ s.color := rfl

theorem toNat_readReg_npix (s : State) : (s.readReg 2#8).toNat = s.params.w.toNat * s.params.h.toNat :=
  (BitVec.toNat_ofNat ..).trans (Nat.mod_eq_of_lt (npix_lt s.params))

theorem toNat_readReg_mlen {s : State} (h : s.mask.length ≤ s.params.mmax.toNat) :
    (s.readReg 4#8).toNat = s.mask.length :=
  (BitVec.toNat_ofNat ..).trans (Nat.mod_eq_of_lt (h.trans_lt s.params.mmax.isLt))

/-- Reserved indices read 0. -/
theorem readReg_reserved (s : State) {i : BitVec 8} (h : 7 ≤ i.toNat) : s.readReg i = 0#32 := by
  obtain ⟨n, hn⟩ := Nat.exists_eq_add_of_le' h
  simp only [State.readReg, hn]

/-- Settles O14: index by index. -/
theorem registerReadMap : Obligations.RegisterReadMap := by
  unfold Obligations.RegisterReadMap
  refine ⟨fun s i hm => ⟨?_, ?_, ?_, ?_, ?_, ?_, ?_, readReg_reserved s⟩, fun p => ?_⟩
  · rintro rfl
    simp only [readReg_status, getLsbD_statusShown]
    refine ⟨Bool.and_true _, Bool.and_true _, fun j hj => ?_⟩
    rw [decide_eq_false (by omega), Bool.and_false]
  · rintro rfl; rw [readReg_geom]; exact ⟨field_high _ _, field_low _ _⟩
  · rintro rfl; exact toNat_readReg_npix s
  · rintro rfl; rw [readReg_color]; exact ⟨field_high _ _, field_low _ _⟩
  · rintro rfl; exact toNat_readReg_mlen hm
  · rintro rfl; rfl
  · rintro rfl; rfl
  · exact ⟨BitVec.zero_and, rfl, toNat_readReg_npix _, BitVec.zero_append_zero, rfl, rfl, rfl⟩

/-! ### Reads among the words of a stream -/

theorem step_read {s : State} {i : BitVec 8} {rest : List Input} (h : s.inbox = .read i :: rest) :
    step s = .next ((s.setInbox rest).reply i (s.readReg i)) :=
  step_cons h

theorem run_succ (n : Nat) (s : State) :
    Host.Core.run core (n + 1) s = andThen (step s) (Host.Core.run core n) := by
  simp only [Host.Core.run, andThen, show core.step s = step s from rfl]
  cases step s <;> rfl

/-- The words at the head of the inbox are what the first steps run; the steps after them start from the state those
words leave (R49). -/
theorem run_words {ws : List Word} {rest : List Input} (n : Nat) {s : State}
    (h : s.inbox = ws.map Input.command ++ rest) :
    Host.Core.run core (ws.length + n) s = andThen (runWords ws (s.setInbox rest)) (Host.Core.run core n) := by
  induction ws generalizing s with
  | nil =>
    obtain rfl : s.inbox = rest := h
    rw [List.length_nil, Nat.zero_add]
    rfl
  | cons w ws ih =>
    have hstep : step s = runWord w (s.setInbox (ws.map Input.command ++ rest)) := step_cons h
    have hword : runWord w (s.setInbox rest) = andThen (step s) fun t => .next (t.setInbox rest) := by
      rw [hstep]
      exact runWord_setInbox w (s.setInbox (ws.map Input.command ++ rest)) rest
    rw [List.length_cons, Nat.add_right_comm, run_succ, runWords, hword]
    cases hs : step s with
    | next t => exact ih (runWord_next_ports (hstep.symm.trans hs)).1
    | fault f => rfl
    | refused r => rfl

theorem runWords_next_inbox {ws : List Word} {s t : State} (h : runWords ws s = .next t) : t.inbox = s.inbox := by
  induction ws generalizing s with
  | nil => cases h; rfl
  | cons w ws ih =>
    rw [runWords] at h
    cases hw : runWord w s with
    | next u => rw [hw] at h; exact (ih h).trans (runWord_next_ports hw).1
    | fault f => rw [hw] at h; cases h
    | refused r => rw [hw] at h; cases h

/-- Settles O15: a read is a step of its own, taken after the words before it and before every later one. -/
theorem readSeesExactlyEarlierCommands : Obligations.ReadSeesExactlyEarlierCommands := by
  unfold Obligations.ReadSeesExactlyEarlierCommands
  refine ⟨fun s i rest h => ⟨step_read h, readReg_reserved s⟩, fun ws i rest s t h ht => ?_⟩
  have hread : step t = .next ((t.setInbox rest).reply i (t.readReg i)) := step_read (runWords_next_inbox ht)
  have hwords : runWords ws (s.setInbox (.read i :: rest)) = .next t := ht
  rw [run_words 1 h, hwords]
  exact (run_succ 0 t).trans (by rw [hread]; rfl)

end Sys2Proof.Machine
end

section
/-! PROOFS. Words of a stream take effect in issue order (20_memory.md R49, R50; 30_encoding.md R64). -/

namespace Sys2Proof

/-- Decoding undoes encoding: format by format, every field is read back where it was written (R57 to R64). -/
theorem decode_encode {i : Instr} (h : i.wellFormed = true) : decode (encode i) = .command i := by
  cases i with
  | nop | clear | maskclr | composite | serp | emit | clrstat => simp [encode, decode, decodeZ]
  | setcolor r g b | fill r g b => simp [encode, decode, decodeC]
  | maskpush cnt data =>
    have hcnt : countInRange cnt = true := h
    simp [encode, decode, decodeM, hcnt]
  | glyph2 d | glyph4 d | glyph8 d => simp [encode, decode, decodeD]

/-- A word numbered as the opcode table numbers it is the word. -/
@[simp] theorem tableWord_toNat (w : Word) : tableWord 32 w.toNat = w := by
  rw [tableWord, Nat.mod_eq_of_lt w.isLt, BitVec.ofNat_toNat, BitVec.setWidth_eq]

namespace Machine

theorem runWord_of_decode {w : Word} {i : Instr} (h : decode w = .command i) (s : State) :
    runWord w s = exec i s := by
  simp only [runWord, h]

/-- Settles O11: a step hands the word it takes to the decoder; a word placed by `withFetchWord` is the one it takes. -/
theorem stepRunsDecodedCommand : Obligations.StepRunsDecodedCommand := by
  unfold Obligations.StepRunsDecodedCommand
  refine ⟨fun s w i rest hin hw => ?_, fun s i hi => ?_⟩
  · exact (step_cons hin).trans (runWord_of_decode hw _)
  · rw [step_withFetchWord, tableWord_toNat]
    exact runWord_of_decode (decode_encode hi) s

@[simp] theorem andThen_next (o : Host.Outcome State Fault Refusal) : andThen o .next = o := by
  cases o <;> rfl

/-- A list of words does not look at what the host has still to do. -/
theorem runWords_setInbox (ws : List Word) (s : State) (l : List Input) :
    runWords ws (s.setInbox l) = andThen (runWords ws s) fun t => .next (t.setInbox l) := by
  induction ws generalizing s with
  | nil => rfl
  | cons w ws ih =>
    rw [runWords, runWords, runWord_setInbox]
    cases runWord w s with
    | next t => exact ih t
    | fault f => rfl
    | refused r => rfl

/-- Settles O16: the run takes the words from the head of the inbox one by one, and none of them looks at the inputs
behind it. -/
theorem wordsRunInIssueOrder : Obligations.WordsRunInIssueOrder := by
  unfold Obligations.WordsRunInIssueOrder
  refine ⟨fun ws rest s h => ?_, fun ws rest rest' s => ?_⟩
  · exact (run_words 0 h).trans (andThen_next _)
  · exact runWords_setInbox ws (s.setInbox rest) rest'

end Machine

end Sys2Proof
end

section
/-! PROOFS. Idempotent commands (20_memory.md R48). -/

namespace Sys2Proof.Machine

/-! ### Writing the same value twice -/

/-- A painted cell takes the same colour again, and every other one keeps its own. -/
theorem paintCells_paintCells (n : Nat) (mask : List Bool) (c : Pixel) (fb : List (Option Pixel)) :
    paintCells n mask c (paintCells n mask c fb) = paintCells n mask c fb := by
  refine List.ext_getElem? fun p => ?_
  simp only [getElem?_paintCells, Option.map_map]
  congr 1
  funext cell
  rw [Function.comp_apply]
  split <;> rfl

theorem statusCleared_statusCleared (v : BitVec 32) : statusCleared (statusCleared v) = statusCleared v := by
  rw [statusCleared, statusCleared, BitVec.and_assoc, BitVec.and_self]

/-! ### Digit commands in range -/

theorem loadDigits_of_le {max : Nat} {d : BitVec 28} (hd : d.toNat ≤ max) (len : Nat) (render : Nat → List Bool)
    (s : State) : loadDigits max len render d s = .next (s.setMask (render d.toNat)).complete := by
  rcases loadDigits_cases max len render d s with ⟨-, e⟩ | ⟨hlt, -⟩
  · exact e
  · omega

theorem exec_glyph2_of_le {d : BitVec 28} (hd : d.toNat ≤ 99) (s : State) :
    exec (.glyph2 d) s = .next (s.setMask (render2 s.params.rom d.toNat)).complete :=
  loadDigits_of_le hd ..

theorem exec_glyph4_of_le {d : BitVec 28} (hd : d.toNat ≤ 9999) (s : State) :
    exec (.glyph4 d) s = .next (s.setMask (render4 s.params.rom d.toNat)).complete :=
  loadDigits_of_le hd ..

theorem exec_glyph8_of_le {d : BitVec 28} (hd : d.toNat ≤ 99999999) (s : State) :
    exec (.glyph8 d) s = .next (s.setMask (render8 s.params.rom s.params.glyph8Layout d.toNat)).complete :=
  loadDigits_of_le hd ..

/-! ### The second run -/

theorem sameButCount_complete (s : State) : SameButCount s s.complete := rfl

/-- Settles O31: the second run finds every value it writes already there, so it only counts. -/
theorem idempotentCommands : Obligations.IdempotentCommands := by
  unfold Obligations.IdempotentCommands
  intro i s t u hi hr ht hu
  suffices hagain : exec i t = .next t.complete by
    cases hagain.symm.trans hu
    exact sameButCount_complete t
  rcases hi with rfl | rfl | ⟨r, g, b, rfl⟩ | rfl | rfl | ⟨d, rfl | rfl | rfl⟩ | rfl
  · rfl
  · cases ht; rfl
  · cases ht; rfl
  · cases ht; rfl
  · cases ht
    exact congrArg (fun fb => Host.Outcome.next (s.setFb fb).complete.complete) (paintCells_paintCells ..)
  · have hd : d.toNat ≤ 99 := Nat.not_lt.mp (of_decide_eq_false hr)
    cases (exec_glyph2_of_le hd s).symm.trans ht
    exact exec_glyph2_of_le hd _
  · have hd : d.toNat ≤ 9999 := Nat.not_lt.mp (of_decide_eq_false hr)
    cases (exec_glyph4_of_le hd s).symm.trans ht
    exact exec_glyph4_of_le hd _
  · have hd : d.toNat ≤ 99999999 := Nat.not_lt.mp (of_decide_eq_false hr)
    cases (exec_glyph8_of_le hd s).symm.trans ht
    exact exec_glyph8_of_le hd _
  · cases ht
    exact congrArg (fun v => Host.Outcome.next (s.setStatus v).complete.complete) (statusCleared_statusCleared s.status)

end Sys2Proof.Machine
end

section
/-! PROOFS. The decoder and the encoder are each other's inverse (30_encoding.md R57 to R66, R70). -/

namespace Sys2Proof

open BitVec

/-! ### A decoded word is the encoding of its command, format by format -/

variable {w : Word} {i : Instr}

theorem encode_of_decodeZ (op : BitVec 4) {j : Instr} (hop : (opcodeOf w).toNat = op.toNat)
    (hj : encode j = encodeZ op ∧ j.wellFormed = true) (h : decodeZ w j = .command i) :
    encode i = w ∧ i.wellFormed = true := by
  obtain rfl := BitVec.eq_of_toNat_eq hop
  obtain ⟨hz, rfl⟩ := decodeZ_eq_command.mp h
  exact ⟨hj.1.trans (encodeZ_fields hz), hj.2⟩

theorem encode_of_decodeC (op : BitVec 4) {mk : Byte → Byte → Byte → Instr} (hop : (opcodeOf w).toNat = op.toNat)
    (hmk : ∀ r g b, encode (mk r g b) = encodeC op r g b ∧ (mk r g b).wellFormed = true)
    (h : decodeC w mk = .command i) : encode i = w ∧ i.wellFormed = true := by
  obtain rfl := BitVec.eq_of_toNat_eq hop
  obtain ⟨hc, rfl⟩ := decodeC_eq_command.mp h
  exact ⟨(hmk _ _ _).1.trans (encodeC_fields hc), (hmk _ _ _).2⟩

theorem encode_of_decodeM (op : BitVec 4) {mk : BitVec 5 → BitVec 16 → Instr} (hop : (opcodeOf w).toNat = op.toNat)
    (hmk : ∀ cnt data, encode (mk cnt data) = encodeM op cnt data ∧ (mk cnt data).wellFormed = countInRange cnt)
    (h : decodeM w mk = .command i) : encode i = w ∧ i.wellFormed = true := by
  obtain rfl := BitVec.eq_of_toNat_eq hop
  obtain ⟨hm, hcnt, rfl⟩ := decodeM_eq_command.mp h
  exact ⟨(hmk _ _).1.trans (encodeM_fields hm), (hmk _ _).2.trans hcnt⟩

theorem encode_of_decodeD (op : BitVec 4) {mk : BitVec 28 → Instr} (hop : (opcodeOf w).toNat = op.toNat)
    (hmk : ∀ d, encode (mk d) = encodeD op d ∧ (mk d).wellFormed = true)
    (h : decodeD w mk = .command i) : encode i = w ∧ i.wellFormed = true := by
  obtain rfl := BitVec.eq_of_toNat_eq hop
  obtain rfl := decodeD_eq_command.mp h
  exact ⟨(hmk _).1.trans (encodeD_fields w), (hmk _).2⟩

/-- Encoding undoes decoding: branch by branch of the decoder, by the branch's format (R64). -/
theorem encode_of_decode (h : decode w = .command i) : encode i = w ∧ i.wellFormed = true := by
  unfold decode at h
  split at h
  · exact encode_of_decodeZ 0x0#4 ‹_› ⟨rfl, rfl⟩ h
  · exact encode_of_decodeZ 0x1#4 ‹_› ⟨rfl, rfl⟩ h
  · exact encode_of_decodeC 0x2#4 ‹_› (fun _ _ _ => ⟨rfl, rfl⟩) h
  · exact encode_of_decodeZ 0x3#4 ‹_› ⟨rfl, rfl⟩ h
  · exact encode_of_decodeM 0x4#4 ‹_› (fun _ _ => ⟨rfl, rfl⟩) h
  · exact encode_of_decodeZ 0x5#4 ‹_› ⟨rfl, rfl⟩ h
  · exact encode_of_decodeZ 0x6#4 ‹_› ⟨rfl, rfl⟩ h
  · exact encode_of_decodeD 0x7#4 ‹_› (fun _ => ⟨rfl, rfl⟩) h
  · exact encode_of_decodeD 0x8#4 ‹_› (fun _ => ⟨rfl, rfl⟩) h
  · exact encode_of_decodeD 0x9#4 ‹_› (fun _ => ⟨rfl, rfl⟩) h
  · exact encode_of_decodeZ 0xA#4 ‹_› ⟨rfl, rfl⟩ h
  · exact encode_of_decodeC 0xB#4 ‹_› (fun _ _ _ => ⟨rfl, rfl⟩) h
  · exact encode_of_decodeZ 0xC#4 ‹_› ⟨rfl, rfl⟩ h
  · cases h

/-- Settles O1: every field is read back where the encoder wrote it. -/
theorem decodeOfEncode : Obligations.DecodeOfEncode := fun _ => decode_encode

/-- Settles O2: a word whose reserved field is 0 is its fields put together again. -/
theorem encodeOfDecode : Obligations.EncodeOfDecode := fun _ _ => encode_of_decode

/-- Settles O3: seven closed words. -/
theorem sampleWordsDecode : Obligations.SampleWordsDecode := by
  unfold Obligations.SampleWordsDecode
  decide

/-! ### The encoding column of the assembly table -/

theorem encodeZ_eq_shiftLeft (op : BitVec 4) : encodeZ op = op.setWidth 32 <<< 28 := by
  have e : encodeZ op = (op ++ 0#28 : BitVec (4 + 28)).setWidth 32 := (setWidth_eq _).symm
  rw [e, setWidth_append_eq_shiftLeft_setWidth_or, setWidth_zero, or_zero]

theorem encodeC_eq_or (op : BitVec 4) (r g b : Byte) :
    encodeC op r g b = encodeZ op ||| (r.setWidth 32 <<< 16) ||| (g.setWidth 32 <<< 8) ||| b.setWidth 32 := by
  have e : encodeC op r g b = (op ++ 0#4 ++ r ++ g ++ b : BitVec (4 + 4 + 8 + 8 + 8)).setWidth 32 :=
    (setWidth_eq _).symm
  rw [e, encodeZ_eq_shiftLeft, setWidth_append_eq_shiftLeft_setWidth_or,
    setWidth_append_append_append_eq_shiftLeft_setWidth_or, setWidth_zero, zero_shiftLeft, or_zero,
    shiftLeft_or_distrib, shiftLeft_or_distrib, ← shiftLeft_add, ← shiftLeft_add]

theorem encodeM_eq_or (op : BitVec 4) (cnt : BitVec 5) (data : BitVec 16) :
    encodeM op cnt data = encodeZ op ||| (cnt.setWidth 32 <<< 16) ||| data.setWidth 32 := by
  have e : encodeM op cnt data = (op ++ 0#7 ++ cnt ++ data : BitVec (4 + 7 + 5 + 16)).setWidth 32 :=
    (setWidth_eq _).symm
  rw [e, encodeZ_eq_shiftLeft, setWidth_append_append_append_eq_shiftLeft_setWidth_or, setWidth_zero,
    zero_shiftLeft, or_zero]

theorem encodeD_eq_or (op : BitVec 4) (d : BitVec 28) : encodeD op d = encodeZ op ||| d.setWidth 32 := by
  have e : encodeD op d = (op ++ d : BitVec (4 + 28)).setWidth 32 := (setWidth_eq _).symm
  rw [e, encodeZ_eq_shiftLeft, setWidth_append_eq_shiftLeft_setWidth_or]

/-- Settles O4: appending fields is shifting them to their places and joining them. -/
theorem wordsOfAssemblyTable : Obligations.WordsOfAssemblyTable := by
  unfold Obligations.WordsOfAssemblyTable
  refine ⟨rfl, rfl, rfl, rfl, rfl, rfl, rfl, ?_, ?_, ?_, fun d => ⟨?_, ?_, ?_⟩⟩
  · exact encodeC_eq_or 0x2#4
  · exact encodeC_eq_or 0xB#4
  · exact encodeM_eq_or 0x4#4
  · exact encodeD_eq_or 0x7#4 d
  · exact encodeD_eq_or 0x8#4 d
  · exact encodeD_eq_or 0x9#4 d

end Sys2Proof
end

section
/-! PROOFS. The decoder against the opcode map's masks and patterns (30_encoding.md R63). -/

namespace Sys2Proof

open BitVec

/-! ### The masks of the four formats -/

theorem append_eq_append_iff {n m : Nat} {x x' : BitVec n} {y y' : BitVec m} :
    x ++ y = x' ++ y' ↔ x = x' ∧ y = y' := by
  constructor
  · intro h
    exact ⟨by rw [← field_high x y, h, field_high], by rw [← field_low x y, h, field_low]⟩
  · rintro ⟨rfl, rfl⟩
    rfl

/-- A mask of the highest k bits fixes exactly the field of those bits. -/
theorem and_highMask_eq_iff {k m : Nat} (x : BitVec k) (w : BitVec (k + m)) :
    w &&& (allOnes k ++ 0#m) = x ++ 0#m ↔ w.extractLsb' m k = x := by
  have hw : w.extractLsb' m k ++ w.extractLsb' 0 m = w := by
    rw [extractLsb'_append_extractLsb'_eq_extractLsb' (Nat.zero_add m).symm, extractLsb'_eq_self]
  have hmask : w &&& (allOnes k ++ 0#m) = w.extractLsb' m k ++ 0#m := by
    conv_lhs => rw [← hw, and_append, and_allOnes, and_zero]
  rw [hmask, append_left_inj]

theorem and_maskZ_eq_iff (op : BitVec 4) {w : Word} : w &&& 0xFFFFFFFF#32 = encodeZ op ↔ encodeZ op = w := by
  rw [show 0xFFFFFFFF#32 = allOnes 32 from rfl, and_allOnes, eq_comm]

theorem and_maskD_eq_iff (op : BitVec 4) {w : Word} :
    w &&& 0xF0000000#32 = encodeD op 0#28 ↔ ∃ d, encodeD op d = w := by
  refine (and_highMask_eq_iff (m := 28) op w).trans ⟨?_, ?_⟩
  · rintro rfl
    exact ⟨operandOf w, encodeD_fields w⟩
  · rintro ⟨d, rfl⟩
    exact opcodeOf_encodeD op d

/-- The highest bits down to a reserved field below the opcode are the opcode and that field. -/
theorem and_reservedMask_eq_iff {k m : Nat} (op : BitVec 4) (w : BitVec (4 + k + m)) :
    w &&& (allOnes (4 + k) ++ 0#m) = op ++ 0#k ++ 0#m ↔
      w.extractLsb' (m + k) 4 = op ∧ w.extractLsb' m k = 0#k := by
  rw [and_highMask_eq_iff, ← extractLsb'_append_extractLsb'_eq_extractLsb' rfl, append_eq_append_iff]

theorem and_maskC_eq_iff (op : BitVec 4) {w : Word} :
    w &&& 0xFF000000#32 = encodeC op 0#8 0#8 0#8 ↔ ∃ r g b, encodeC op r g b = w := by
  have hpat : encodeC op 0#8 0#8 0#8 = op ++ 0#4 ++ 0#24 := by revert op; decide
  rw [hpat]
  refine (and_reservedMask_eq_iff (k := 4) (m := 24) op w).trans ⟨?_, ?_⟩
  · rintro ⟨rfl, hres⟩
    exact ⟨redOf w, greenOf w, blueOf w, encodeC_fields hres⟩
  · rintro ⟨r, g, b, rfl⟩
    exact ⟨opcodeOf_encodeC .., reservedC_encodeC ..⟩

theorem and_maskM_eq_iff (op : BitVec 4) {w : Word} :
    w &&& 0xFFE00000#32 = encodeM op 0#5 0#16 ↔ ∃ cnt data, encodeM op cnt data = w := by
  have hpat : encodeM op 0#5 0#16 = op ++ 0#7 ++ 0#21 := by revert op; decide
  rw [hpat]
  refine (and_reservedMask_eq_iff (k := 7) (m := 21) op w).trans ⟨?_, ?_⟩
  · rintro ⟨rfl, hres⟩
    exact ⟨countOf w, dataOf w, encodeM_fields hres⟩
  · rintro ⟨cnt, data, rfl⟩
    exact ⟨opcodeOf_encodeM .., reservedM_encodeM ..⟩

/-! ### Rows and commands -/

theorem admits_iff {row : OpcodeRow} {w : Word} : row.admits w = true ↔ w &&& row.mask = row.pattern := beq_iff_eq

theorem exists_row (k : Fin 13) {w : Word} {name : String}
    (hw : w &&& (opcodeRows.get k).mask = (opcodeRows.get k).pattern) (hname : (opcodeRows.get k).mnemonic = name) :
    ∃ row ∈ opcodeRows, row.admits w = true ∧ row.mnemonic = name :=
  ⟨opcodeRows.get k, List.get_mem .., admits_iff.mpr hw, hname⟩

/-- The word of a command has the fixed bits of its mnemonic's row. -/
theorem exists_row_admits_encode (i : Instr) :
    ∃ row ∈ opcodeRows, row.admits (encode i) = true ∧ row.mnemonic = i.mnemonic := by
  cases i with
  | nop => exact exists_row 0 ((and_maskZ_eq_iff 0x0#4).mpr rfl) rfl
  | clear => exact exists_row 1 ((and_maskZ_eq_iff 0x1#4).mpr rfl) rfl
  | setcolor r g b => exact exists_row 2 ((and_maskC_eq_iff 0x2#4).mpr ⟨r, g, b, rfl⟩) rfl
  | maskclr => exact exists_row 3 ((and_maskZ_eq_iff 0x3#4).mpr rfl) rfl
  | maskpush cnt data => exact exists_row 4 ((and_maskM_eq_iff 0x4#4).mpr ⟨cnt, data, rfl⟩) rfl
  | composite => exact exists_row 5 ((and_maskZ_eq_iff 0x5#4).mpr rfl) rfl
  | serp => exact exists_row 6 ((and_maskZ_eq_iff 0x6#4).mpr rfl) rfl
  | glyph2 d => exact exists_row 7 ((and_maskD_eq_iff 0x7#4).mpr ⟨d, rfl⟩) rfl
  | glyph4 d => exact exists_row 8 ((and_maskD_eq_iff 0x8#4).mpr ⟨d, rfl⟩) rfl
  | glyph8 d => exact exists_row 9 ((and_maskD_eq_iff 0x9#4).mpr ⟨d, rfl⟩) rfl
  | emit => exact exists_row 10 ((and_maskZ_eq_iff 0xA#4).mpr rfl) rfl
  | fill r g b => exact exists_row 11 ((and_maskC_eq_iff 0xB#4).mpr ⟨r, g, b, rfl⟩) rfl
  | clrstat => exact exists_row 12 ((and_maskZ_eq_iff 0xC#4).mpr rfl) rfl

/-- A word with a row's fixed bits is the word of a command of that row's mnemonic. -/
theorem exists_encode_of_admits {row : OpcodeRow} (hrow : row ∈ opcodeRows) {w : Word} (h : row.admits w = true) :
    ∃ i, encode i = w ∧ i.mnemonic = row.mnemonic := by
  rw [admits_iff] at h
  simp only [opcodeRows, List.mem_cons, List.not_mem_nil, or_false] at hrow
  rcases hrow with rfl | rfl | rfl | rfl | rfl | rfl | rfl | rfl | rfl | rfl | rfl | rfl | rfl
  · exact ⟨.nop, (and_maskZ_eq_iff 0x0#4).mp h, rfl⟩
  · exact ⟨.clear, (and_maskZ_eq_iff 0x1#4).mp h, rfl⟩
  · obtain ⟨r, g, b, e⟩ := (and_maskC_eq_iff 0x2#4).mp h
    exact ⟨.setcolor r g b, e, rfl⟩
  · exact ⟨.maskclr, (and_maskZ_eq_iff 0x3#4).mp h, rfl⟩
  · obtain ⟨cnt, data, e⟩ := (and_maskM_eq_iff 0x4#4).mp h
    exact ⟨.maskpush cnt data, e, rfl⟩
  · exact ⟨.composite, (and_maskZ_eq_iff 0x5#4).mp h, rfl⟩
  · exact ⟨.serp, (and_maskZ_eq_iff 0x6#4).mp h, rfl⟩
  · obtain ⟨d, e⟩ := (and_maskD_eq_iff 0x7#4).mp h
    exact ⟨.glyph2 d, e, rfl⟩
  · obtain ⟨d, e⟩ := (and_maskD_eq_iff 0x8#4).mp h
    exact ⟨.glyph4 d, e, rfl⟩
  · obtain ⟨d, e⟩ := (and_maskD_eq_iff 0x9#4).mp h
    exact ⟨.glyph8 d, e, rfl⟩
  · exact ⟨.emit, (and_maskZ_eq_iff 0xA#4).mp h, rfl⟩
  · obtain ⟨r, g, b, e⟩ := (and_maskC_eq_iff 0xB#4).mp h
    exact ⟨.fill r g b, e, rfl⟩
  · exact ⟨.clrstat, (and_maskZ_eq_iff 0xC#4).mp h, rfl⟩

theorem wellFormed_of_countInRange {i : Instr}
    (h : i.mnemonic = "MASKPUSH" → countInRange (countOf (encode i)) = true) : i.wellFormed = true := by
  cases i with
  | maskpush cnt data => exact countOf_encodeM 0x4#4 cnt data ▸ h rfl
  | _ => rfl

/-- Settles O5: a row's words are those its mnemonic's commands encode to, and of these the well-formed ones decode. -/
theorem decodeMeetsOpcodeMap : Obligations.DecodeMeetsOpcodeMap := by
  unfold Obligations.DecodeMeetsOpcodeMap
  refine ⟨fun w i h => ?_, fun w row hrow hw hcnt => ?_⟩
  · rw [← (encode_of_decode h).1]
    exact exists_row_admits_encode i
  · obtain ⟨i, rfl, hi⟩ := exists_encode_of_admits hrow hw
    exact ⟨i, decode_encode (wellFormed_of_countInRange (hi ▸ hcnt)), hi⟩

end Sys2Proof
end

section
/-! PROOFS. How many words are legal (30_encoding.md R68): as many as there are well-formed commands, counted format by
format. -/

namespace Sys2Proof

/-- The well-formed commands by format: 7 of format Z, 2 of format C, MASKPUSH with its count in 1..16, and 3 of format
D (R58 to R63). -/
abbrev ByFormat : Type :=
  Fin 7 ⊕ (Fin 2 × Byte × Byte × Byte) ⊕ ({cnt : BitVec 5 // countInRange cnt = true} × BitVec 16) ⊕
    (Fin 3 × BitVec 28)

/-- The place of a command among its format's. -/
def toFormat : {i : Instr // i.wellFormed = true} → ByFormat
  | ⟨.nop, _⟩ => .inl 0
  | ⟨.clear, _⟩ => .inl 1
  | ⟨.maskclr, _⟩ => .inl 2
  | ⟨.composite, _⟩ => .inl 3
  | ⟨.serp, _⟩ => .inl 4
  | ⟨.emit, _⟩ => .inl 5
  | ⟨.clrstat, _⟩ => .inl 6
  | ⟨.setcolor r g b, _⟩ => .inr (.inl (0, r, g, b))
  | ⟨.fill r g b, _⟩ => .inr (.inl (1, r, g, b))
  | ⟨.maskpush cnt data, h⟩ => .inr (.inr (.inl (⟨cnt, h⟩, data)))
  | ⟨.glyph2 d, _⟩ => .inr (.inr (.inr (0, d)))
  | ⟨.glyph4 d, _⟩ => .inr (.inr (.inr (1, d)))
  | ⟨.glyph8 d, _⟩ => .inr (.inr (.inr (2, d)))

/-- The command at a place of its format. -/
def ofFormat : ByFormat → {i : Instr // i.wellFormed = true}
  | .inl 0 => ⟨.nop, rfl⟩
  | .inl 1 => ⟨.clear, rfl⟩
  | .inl 2 => ⟨.maskclr, rfl⟩
  | .inl 3 => ⟨.composite, rfl⟩
  | .inl 4 => ⟨.serp, rfl⟩
  | .inl 5 => ⟨.emit, rfl⟩
  | .inl 6 => ⟨.clrstat, rfl⟩
  | .inr (.inl (0, r, g, b)) => ⟨.setcolor r g b, rfl⟩
  | .inr (.inl (1, r, g, b)) => ⟨.fill r g b, rfl⟩
  | .inr (.inr (.inl (cnt, data))) => ⟨.maskpush cnt data, cnt.2⟩
  | .inr (.inr (.inr (0, d))) => ⟨.glyph2 d, rfl⟩
  | .inr (.inr (.inr (1, d))) => ⟨.glyph4 d, rfl⟩
  | .inr (.inr (.inr (2, d))) => ⟨.glyph8 d, rfl⟩

def formatEquiv : {i : Instr // i.wellFormed = true} ≃ ByFormat where
  toFun := toFormat
  invFun := ofFormat
  left_inv := by rintro ⟨i, h⟩; cases i <;> rfl
  right_inv := by
    rintro (k | ⟨k, r, g, b⟩ | ⟨cnt, data⟩ | ⟨k, d⟩)
    · fin_cases k <;> rfl
    · fin_cases k <;> rfl
    · rfl
    · fin_cases k <;> rfl

theorem card_bitVec (n : Nat) : Nat.card (BitVec n) = 2 ^ n :=
  (Nat.card_congr BitVec.equivFin.toEquiv).trans (Nat.card_fin _)

theorem card_countInRange : Nat.card {cnt : BitVec 5 // countInRange cnt = true} = 16 := by
  rw [Nat.card_eq_fintype_card]
  decide

theorem card_byFormat : Nat.card ByFormat = 839909383 := by
  simp only [ByFormat, Nat.card_sum, Nat.card_prod, Nat.card_fin, card_bitVec, card_countInRange]
  norm_num

theorem isCommand_iff {d : Decoded} : d.isCommand = true ↔ ∃ i, d = .command i := by
  cases d <;> simp [Decoded.isCommand]

/-- The legal word of a well-formed command. -/
def legalWord (i : {i : Instr // i.wellFormed = true}) : {w : Word // (decode w).isCommand = true} :=
  ⟨encode i.1, isCommand_iff.mpr ⟨i.1, decode_encode i.2⟩⟩

/-- Each legal word is the word of exactly one well-formed command. -/
theorem legalWord_bijective : Function.Bijective legalWord := by
  constructor
  · rintro ⟨i, hi⟩ ⟨j, hj⟩ h
    have hw : encode i = encode j := congrArg Subtype.val h
    have hd : Decoded.command i = .command j := by rw [← decode_encode hi, hw, decode_encode hj]
    cases hd
    rfl
  · rintro ⟨w, hw⟩
    obtain ⟨i, hi⟩ := isCommand_iff.mp hw
    obtain ⟨rfl, hwf⟩ := encode_of_decode hi
    exact ⟨⟨i, hwf⟩, rfl⟩

theorem card_legal : Nat.card {w : Word // (decode w).isCommand = true} = 839909383 :=
  calc Nat.card {w : Word // (decode w).isCommand = true}
    _ = Nat.card {i : Instr // i.wellFormed = true} := (Nat.card_congr (.ofBijective _ legalWord_bijective)).symm
    _ = Nat.card ByFormat := Nat.card_congr formatEquiv
    _ = 839909383 := card_byFormat

/-- The legal and the illegal words are all the 2^32 words. -/
theorem card_legal_add_card_illegal :
    Nat.card {w : Word // (decode w).isCommand = true} + Nat.card {w : Word // (decode w).isCommand = false} =
      2 ^ 32 := by
  rw [← card_bitVec 32, ← Nat.card_sum,
    ← Nat.card_congr (Equiv.sumCompl fun w : Word => (decode w).isCommand = true)]
  simp only [Bool.not_eq_true]

/-- Settles O6: the legal words are counted as well-formed commands, and the illegal ones are the rest. -/
theorem legalWordCount : Obligations.LegalWordCount := by
  refine ⟨card_legal, ?_⟩
  have hsum := card_legal_add_card_illegal
  rw [card_legal] at hsum
  omega

end Sys2Proof
end

section
/-! PROOFS. The illegal words (30_encoding.md R65, R66) and what they do (44_control.md R120). -/

namespace Sys2Proof

/-! ### The format an opcode is decoded in -/

variable {w : Word}

theorem decode_formatZ (h : opcodeOf w ∈ [0x0#4, 0x1#4, 0x3#4, 0x5#4, 0x6#4, 0xA#4, 0xC#4]) :
    ∃ i, decode w = decodeZ w i := by
  simp only [List.mem_cons, List.not_mem_nil, or_false] at h
  rcases h with h | h | h | h | h | h | h <;> exact ⟨_, by rw [decode, h]; rfl⟩

theorem decode_formatC (h : opcodeOf w ∈ [0x2#4, 0xB#4]) : ∃ mk, decode w = decodeC w mk := by
  simp only [List.mem_cons, List.not_mem_nil, or_false] at h
  rcases h with h | h <;> exact ⟨_, by rw [decode, h]; rfl⟩

theorem decode_formatM (h : opcodeOf w = 0x4#4) : decode w = decodeM w .maskpush := by
  rw [decode, h]
  rfl

theorem decode_reserved (h : opcodeOf w = 0xD#4 ∨ opcodeOf w = 0xE#4 ∨ opcodeOf w = 0xF#4) :
    decode w = .illegal .reservedOpcode := by
  rcases h with h | h | h <;> rw [decode, h] <;> rfl

theorem countInRange_iff {cnt : BitVec 5} : countInRange cnt = true ↔ 1 ≤ cnt.toNat ∧ cnt.toNat ≤ 16 := by
  simp [countInRange]

namespace Machine

/-- Every illegal word does the same, whatever the cause (R120). -/
theorem illegalEffect_of_not_isCommand (h : (decode w).isCommand = false) : IllegalEffect w := by
  intro s rest hin
  rw [step_cons hin]
  rcases runWord_cases w (s.setInbox rest) with ⟨i, hi, -⟩ | ⟨c, -, e⟩
  · rw [hi] at h
    cases h
  · exact e

theorem illegal_of_not_command (h : ∀ i, decode w ≠ .command i) : (decode w).isCommand = false ∧ IllegalEffect w := by
  have hw : (decode w).isCommand = false := by
    rw [← Bool.not_eq_true, isCommand_iff]
    rintro ⟨i, hi⟩
    exact h i hi
  exact ⟨hw, illegalEffect_of_not_isCommand hw⟩

/-- Settles O7: the decoder's last branch. -/
theorem reservedOpcodeIsIllegal : Obligations.ReservedOpcodeIsIllegal := by
  unfold Obligations.ReservedOpcodeIsIllegal
  intro w hop
  refine illegal_of_not_command fun i hi => ?_
  cases (decode_reserved hop).symm.trans hi

/-- Settles O8: the checks of formats Z, C and M. -/
theorem reservedFieldOrCountIsIllegal : Obligations.ReservedFieldOrCountIsIllegal := by
  unfold Obligations.ReservedFieldOrCountIsIllegal
  refine ⟨fun w hop hres => ?_, fun w hop hres => ?_, fun w hop hbad => ?_⟩ <;>
    refine illegal_of_not_command fun i hi => ?_
  · obtain ⟨j, e⟩ := decode_formatZ hop
    exact hres (decodeZ_eq_command.mp (e.symm.trans hi)).1
  · obtain ⟨mk, e⟩ := decode_formatC hop
    exact hres (decodeC_eq_command.mp (e.symm.trans hi)).1
  · obtain ⟨hres, hcnt, -⟩ := decodeM_eq_command.mp ((decode_formatM hop).symm.trans hi)
    obtain ⟨hlow, hhigh⟩ := countInRange_iff.mp hcnt
    rcases hbad with hres' | hzero | hlarge
    · exact hres' hres
    · omega
    · omega

end Machine

end Sys2Proof
end

section
/-! PROOFS. MASKPUSH's ignored bits, and the assembler on what a decoder prints (30_encoding.md R71, R73). -/

namespace Sys2Proof.Machine

/-! ### Ignored DATA bits -/

theorem pushedBits_congr {cnt : BitVec 5} {d d' : BitVec 16}
    (h : ∀ j, j < cnt.toNat → d.getLsbD j = d'.getLsbD j) : pushedBits cnt d = pushedBits cnt d' :=
  List.map_congr_left fun j hj => h j (List.mem_range.mp hj)

theorem exec_maskpush (cnt : BitVec 5) (data : BitVec 16) (s : State) :
    exec (.maskpush cnt data) s =
      .next (s.setMask (pushBits s.params.mmax.toNat s.mask (pushedBits cnt data))).complete := rfl

/-- Settles O9: MASKPUSH reads DATA only through the bits it pushes. -/
theorem ignoredDataBitsHaveNoEffect : Obligations.IgnoredDataBitsHaveNoEffect := by
  unfold Obligations.IgnoredDataBitsHaveNoEffect
  intro cnt d d' s h
  rw [exec_maskpush, exec_maskpush, pushedBits_congr h]

/-! ### Operands that come from fields are accepted -/

@[simp] theorem asmChannel_toNat (v : Byte) : asmChannel v.toNat = some v := by
  have hv := v.isLt
  rw [asmChannel, if_pos (by omega), BitVec.ofNat_toNat, BitVec.setWidth_eq]

@[simp] theorem asmDigits_toNat (d : BitVec 28) : asmDigits d.toNat = some d := by
  have hd := d.isLt
  rw [asmDigits, if_pos (by omega), BitVec.ofNat_toNat, BitVec.setWidth_eq]

@[simp] theorem asmColor_toNat (mk : Byte → Byte → Byte → Instr) (r g b : Byte) :
    asmColor mk r.toNat g.toNat b.toNat = some (mk r g b) := by
  simp only [asmColor, asmChannel_toNat]

@[simp] theorem canonicalData_canonicalData (cnt data : Nat) :
    canonicalData cnt (canonicalData cnt data) = canonicalData cnt data :=
  Nat.mod_mod _ _

theorem asmPush_printed {cnt : BitVec 5} (hcnt : countInRange cnt = true) (data : BitVec 16) :
    asmPush cnt.toNat (canonicalData cnt.toNat data.toNat) =
      some (.maskpush cnt (BitVec.ofNat 16 (canonicalData cnt.toNat data.toNat))) := by
  obtain ⟨hlow, hhigh⟩ := countInRange_iff.mp hcnt
  have hdata : canonicalData cnt.toNat data.toNat ≤ 0xFFFF :=
    (Nat.mod_le _ _).trans (Nat.le_of_lt_succ data.isLt)
  rw [asmPush, if_pos ⟨hlow, hhigh, hdata⟩, canonicalData_canonicalData, BitVec.ofNat_toNat, BitVec.setWidth_eq]

/-- Canonical data are the low CNT bits of the data, and zeros above (R73). -/
theorem getLsbD_canonicalData (cnt : Nat) (data : BitVec 16) (j : Nat) :
    (BitVec.ofNat 16 (canonicalData cnt data.toNat)).getLsbD j = (decide (j < cnt) && data.getLsbD j) := by
  rw [BitVec.getLsbD_ofNat, canonicalData, Nat.testBit_mod_two_pow]
  by_cases hj : j < 16
  · rw [decide_eq_true hj, Bool.true_and]
    rfl
  · rw [decide_eq_false hj, BitVec.getLsbD_of_ge _ _ (Nat.le_of_not_lt hj), Bool.false_and, Bool.and_false]

/-- What the assembler gives back of a printed command: the command, MASKPUSH's data in canonical form. -/
def reassembled : Instr → Instr
  | .maskpush cnt data => .maskpush cnt (BitVec.ofNat 16 (canonicalData cnt.toNat data.toNat))
  | i => i

theorem assembleLine_printed {i : Instr} (h : i.wellFormed = true) :
    assembleLine (printed i).1 (printed i).2 = some [reassembled i] := by
  cases i with
  | nop | clear | maskclr | composite | serp | emit | clrstat => rfl
  | setcolor r g b | fill r g b => simp [printed, assembleLine, reassembled]
  | glyph2 d | glyph4 d | glyph8 d => simp [printed, assembleLine, reassembled]
  | maskpush cnt data => simp [printed, assembleLine, reassembled, asmPush_printed (show countInRange cnt = true from h)]

/-- Settles O10: only MASKPUSH comes back changed, in the bits it ignores. -/
theorem assemblerReadsWhatDecoderPrints : Obligations.AssemblerReadsWhatDecoderPrints := by
  unfold Obligations.AssemblerReadsWhatDecoderPrints
  intro i hi
  refine ⟨reassembled i, assembleLine_printed hi, ?_⟩
  cases i with
  | maskpush cnt data =>
    refine ⟨fun s => ignoredDataBitsHaveNoEffect cnt _ data s fun j hj => ?_, fun hne => absurd rfl (hne cnt data), ?_⟩
    · rw [getLsbD_canonicalData, decide_eq_true hj, Bool.true_and]
    · rintro _ _ ⟨⟩
      refine ⟨_, rfl, fun j hj => ?_⟩
      rw [getLsbD_canonicalData, decide_eq_false (Nat.not_lt.mpr hj), Bool.false_and]
  | _ => exact ⟨fun _ => rfl, fun _ => rfl, by rintro _ _ ⟨⟩⟩

end Sys2Proof.Machine
end

section
/-! PROOFS. The frames of the pseudo-instructions SENDFRAME and COUNTER (30_encoding.md R72, 41_compositor.md R94). -/

namespace Sys2Proof.Machine

/-! ### Lists of commands -/

@[simp] theorem next_andThen (s : State) (f : State → Host.Outcome State Fault Refusal) :
    andThen (.next s) f = f s := rfl

theorem execAll_append (l l' : List Instr) (s : State) :
    execAll (l ++ l') s = andThen (execAll l s) (execAll l') := by
  induction l generalizing s with
  | nil => rfl
  | cons i l ih =>
    rw [List.cons_append, execAll, execAll]
    cases exec i s with
    | next t => exact ih t
    | fault f => rfl
    | refused r => rfl

theorem exec_clear (s : State) : exec .clear s = .next (s.setFb (clearedCells s.npix)).complete := rfl

theorem exec_serp (s : State) : exec .serp s = .next (s.setFb (serpCells s.params s.fb)).complete := rfl

/-! ### MASK: the pushes of a mask's chunks load the mask -/

/-- Bit j of v = Σ b(j)·2^j. -/
theorem testBit_bitsValue (bits : List Bool) (j : Nat) : (bitsValue bits).testBit j = maskBit bits j := by
  induction bits generalizing j with
  | nil => exact Nat.zero_testBit j
  | cons b rest ih =>
    have hb : b.toNat < 2 := b.toNat_lt
    rw [bitsValue]
    cases j with
    | zero => cases b <;> simp [maskBit, Nat.testBit_zero]
    | succ j =>
      rw [Nat.testBit_succ, Nat.add_mul_div_left _ _ (by decide), Nat.div_eq_of_lt hb, Nat.zero_add, ih]
      rfl

theorem pushedBits_pushChunk {chunk : List Bool} (h : chunk.length ≤ 16) :
    pushedBits (BitVec.ofNat 5 chunk.length) (BitVec.ofNat 16 (bitsValue chunk)) = chunk := by
  have hlen : (BitVec.ofNat 5 chunk.length).toNat = chunk.length := by
    rw [BitVec.toNat_ofNat]
    omega
  rw [pushedBits, hlen]
  refine List.ext_getElem (by simp) fun j _ hj => ?_
  have hj16 : j < 16 := hj.trans_le h
  rw [List.getElem_map, List.getElem_range, BitVec.getLsbD_ofNat, testBit_bitsValue, decide_eq_true hj16,
    Bool.true_and, maskBit, List.getD_eq_getElem _ _ hj]

theorem flatMap_maskChunk (bits : List Bool) (k : Nat) :
    (List.range k).flatMap (maskChunk bits) = bits.take (16 * k) := by
  induction k with
  | zero => simp
  | succ k ih =>
    rw [List.range_succ, List.flatMap_append, ih, Nat.mul_succ, List.take_add]
    simp [maskChunk]

theorem pushBits_append (cap : Nat) (mask bits bits' : List Bool) :
    pushBits cap mask (bits ++ bits') = pushBits cap (pushBits cap mask bits) bits' :=
  List.foldl_append

/-- The pushes of chunks are one push of all their bits. -/
theorem execAll_pushChunks {chunks : List (List Bool)} (h : ∀ c ∈ chunks, c.length ≤ 16) (s : State) :
    ∃ k, execAll (chunks.map pushChunk) s =
      .next { s with mask := pushBits s.params.mmax.toNat s.mask chunks.flatten, k := k } := by
  induction chunks generalizing s with
  | nil => exact ⟨s.k, rfl⟩
  | cons c rest ih =>
    rw [List.forall_mem_cons] at h
    rw [List.map_cons, execAll, pushChunk, exec_maskpush, pushedBits_pushChunk h.1]
    obtain ⟨k, hk⟩ := ih h.2 (s.setMask (pushBits s.params.mmax.toNat s.mask c)).complete
    refine ⟨k, hk.trans ?_⟩
    rw [List.flatten_cons, pushBits_append]
    rfl

/-- MASK loads the mask, as far as the capacity goes (R72, R90). -/
theorem execAll_expandMask (bits : List Bool) (s : State) :
    ∃ k, execAll (expandMask bits) s = .next { s with mask := bits.take s.params.mmax.toNat, k := k } := by
  have hchunk : ∀ c ∈ (List.range ((bits.length + 15) / 16)).map (maskChunk bits), c.length ≤ 16 := by
    simp [maskChunk]
  have hall : ((List.range ((bits.length + 15) / 16)).map (maskChunk bits)).flatten = bits := by
    rw [← List.flatMap_def, flatMap_maskChunk, List.take_of_length_le (by omega)]
  obtain ⟨k, hk⟩ := execAll_pushChunks hchunk (s.setMask []).complete
  rw [hall, pushBits_eq, List.map_map] at hk
  exact ⟨k, hk⟩

/-- A mask cut at the capacity selects the same pixels below it. -/
theorem maskBit_take {m p : Nat} (bits : List Bool) (h : p < m) : maskBit (bits.take m) p = maskBit bits p := by
  simp only [maskBit, List.getD_eq_getElem?_getD, List.getElem?_take_of_lt h]

/-! ### Written buffers and layers on them -/

/-- n written cells, cell p holding px p. -/
def writtenCells (n : Nat) (px : Nat → Pixel) : List (Option Pixel) := ((List.range n).map px).map some

theorem clearedCells_eq (n : Nat) : clearedCells n = writtenCells n fun _ => black := by
  simp [clearedCells, writtenCells]

theorem paintCells_writtenCells (n : Nat) (mask : List Bool) (c : Pixel) (px : Nat → Pixel) :
    paintCells n mask c (writtenCells n px) = writtenCells n fun p => if maskBit mask p then c else px p := by
  refine List.ext_getElem (by simp [writtenCells]) fun p hp hp' => ?_
  have hpn : p < n := by simpa [writtenCells] using hp'
  simp only [paintCells, writtenCells, List.getElem_mapIdx, List.getElem_map, List.getElem_range, hpn,
    decide_true, Bool.true_and]
  split <;> rfl

theorem writtenCells_congr {n : Nat} {px px' : Nat → Pixel} (h : ∀ p, p < n → px p = px' p) :
    writtenCells n px = writtenCells n px' :=
  congrArg (List.map some) (List.map_congr_left fun p hp => h p (List.mem_range.mp hp))

@[simp] theorem colorPixel_packColor (r g b : Byte) : colorPixel (packColor r g b) = { r := r, g := g, b := b } := by
  have hr : (packColor r g b).extractLsb' 16 8 = r := (field_above (r ++ g) b (by decide)).trans (field_high r g)
  have hg : (packColor r g b).extractLsb' 8 8 = g := (field_above (r ++ g) b (by decide)).trans (field_low r g)
  have hb : (packColor r g b).extractLsb' 0 8 = b := field_low (r ++ g) b
  rw [colorPixel, hr, hg, hb]

/-- The colour of a layer as a pixel. -/
def Layer.pixel (l : Layer) : Pixel := { r := l.r, g := l.g, b := l.b }

/-- s after commands of the Frame Compositor: a mask, a colour, cells and the count are new, and nothing else is. -/
def State.composed (s : State) (m : List Bool) (c : BitVec 24) (fb : List (Option Pixel)) (k : Nat) : State :=
  { s with mask := m, color := c, fb := fb, k := k }

/-- LAYER paints the pixels its mask selects (R72, R92). -/
theorem execAll_expandLayer (l : Layer) {s : State} {px : Nat → Pixel} (hcap : s.npix ≤ s.params.mmax.toNat)
    (hfb : s.fb = writtenCells s.npix px) :
    ∃ m c k, execAll (expandLayer l) s =
      .next (s.composed m c (writtenCells s.npix fun p => if maskBit l.bits p then l.pixel else px p) k) := by
  obtain ⟨k, hk⟩ := execAll_expandMask l.bits s
  have hpaint : paintCells s.npix (l.bits.take s.params.mmax.toNat) l.pixel s.fb =
      writtenCells s.npix fun p => if maskBit l.bits p then l.pixel else px p := by
    rw [hfb, paintCells_writtenCells]
    exact writtenCells_congr fun p hp => by rw [maskBit_take _ (hp.trans_le hcap)]
  refine ⟨l.bits.take s.params.mmax.toNat, packColor l.r l.g l.b, k + 2, ?_⟩
  rw [expandLayer, execAll_append, hk, ← hpaint, Layer.pixel, ← colorPixel_packColor]
  rfl

/-- The last selecting layer of a list is that of its tail, or else its head. -/
theorem lastColor_cons (l : Layer) (layers : List Layer) (p : Nat) (px : Pixel) :
    (lastColor (l :: layers) p).getD px = (lastColor layers p).getD (if maskBit l.bits p then l.pixel else px) := by
  by_cases hl : maskBit l.bits p = true
  · rw [lastColor, lastColor, List.filter_cons, if_pos hl, List.getLast?_cons, if_pos hl]
    cases (layers.filter fun l => maskBit l.bits p).getLast? <;> rfl
  · rw [lastColor, lastColor, List.filter_cons, if_neg hl, if_neg hl]

/-- Layers one after another: each pixel has the colour of the last one that selects it (R93, R94). -/
theorem execAll_layers (layers : List Layer) {s : State} {px : Nat → Pixel} (hcap : s.npix ≤ s.params.mmax.toNat)
    (hfb : s.fb = writtenCells s.npix px) :
    ∃ m c k, execAll (layers.flatMap expandLayer) s =
      .next (s.composed m c (writtenCells s.npix fun p => (lastColor layers p).getD (px p)) k) := by
  induction layers generalizing s px with
  | nil => exact ⟨s.mask, s.color, s.k, congrArg (fun fb => Host.Outcome.next (s.composed s.mask s.color fb s.k)) hfb⟩
  | cons l layers ih =>
    obtain ⟨m, c, k, hl⟩ := execAll_expandLayer l hcap hfb
    obtain ⟨m', c', k', hrest⟩ := ih
      (s := s.composed m c (writtenCells s.npix fun p => if maskBit l.bits p then l.pixel else px p) k) hcap rfl
    refine ⟨m', c', k', ?_⟩
    rw [List.flatMap_cons, execAll_append, hl, next_andThen, hrest]
    simp only [lastColor_cons]
    rfl

/-! ### SERP and EMIT on a written buffer -/

theorem map_range_getD {α : Type} (l : List α) (d : α) : (List.range l.length).map (fun q => l.getD q d) = l :=
  List.ext_getElem (by simp) fun q hq hq' => by simp [hq']

/-- A buffer of written pixels serializes to their bytes. -/
theorem serialize_of_written {s : State} {px : List Pixel} (hfb : s.fb = px.map some) (hlen : px.length = s.npix) :
    s.serialize = .ok (px.flatMap pixelBytes) := by
  rw [State.serialize, serializeFrom_eq_ok (px := fun q => px.getD q black)]
  · rw [← List.range_eq_range', ← hlen, ← List.flatMap_map (fun q => px.getD q black), map_range_getD]
  · intro q _ hq
    have hq' : q < px.length := by omega
    simp [State.readPixel, hfb, hq']

theorem exec_emit_of_serialize {s : State} {f : Frame} (h : s.serialize = .ok f) :
    exec .emit s = .next (s.emitFrame f).complete := by
  simp only [exec, execEmit, h]

/-- SERP and EMIT send a written buffer in the order SERP gives. -/
theorem execAll_serp_emit {s : State} {px : List Pixel} (hfb : s.fb = px.map some) (hlen : px.length = s.npix) :
    ∃ t, execAll [.serp, .emit] s = .next t ∧ t.status = s.status ∧ t.params = s.params ∧
      t.out = s.out ++ [(serpCells s.params px).flatMap pixelBytes] := by
  have hser : (s.setFb (serpCells s.params s.fb)).complete.serialize =
      .ok ((serpCells s.params px).flatMap pixelBytes) := by
    refine serialize_of_written ?_ ((length_serpCells _ _).trans hlen)
    rw [map_serpCells, ← hfb]
    rfl
  refine ⟨((s.setFb (serpCells s.params s.fb)).complete.emitFrame
    ((serpCells s.params px).flatMap pixelBytes)).complete, ?_, rfl, rfl, rfl⟩
  rw [execAll, exec_serp, next_andThen, execAll, exec_emit_of_serialize hser]
  rfl

/-! ### SENDFRAME and COUNTER -/

theorem expandSendFrame_eq (layers : List Layer) :
    expandSendFrame layers = .clear :: (layers.flatMap expandLayer ++ [.serp, .emit]) := by
  simp [expandSendFrame, expandCompose]

/-- Settles O40: CLEAR writes every pixel, the layers keep that, and N ≤ NMAX ≤ MMAX, so no mask loses a pixel. -/
theorem sendFrameEmitsSerpentineOfLayers : Obligations.SendFrameEmitsSerpentineOfLayers := by
  unfold Obligations.SendFrameEmitsSerpentineOfLayers
  intro layers s hs
  obtain ⟨-, -, hnmax, hmmax, -⟩ := hs.params
  obtain ⟨m, c, k, hlayers⟩ := execAll_layers layers (s := (s.setFb (clearedCells s.npix)).complete)
    (hnmax.trans hmmax) (clearedCells_eq s.npix)
  obtain ⟨t, ht, hframe⟩ := execAll_serp_emit (px := composedPixels s.npix layers)
    (s := (s.setFb (clearedCells s.npix)).complete.composed m c
      (writtenCells s.npix fun p => (lastColor layers p).getD black) k)
    rfl (List.length_map _ |>.trans List.length_range)
  refine ⟨t, ?_, hframe⟩
  rw [expandSendFrame_eq, execAll, exec_clear,
    next_andThen, execAll_append, hlayers]
  exact ht

/-- COUNTER around a digit command that loads a mask: on the cleared buffer every pixel is written. -/
theorem execAll_counter {i : Instr} (hi : ∀ u : State, ∃ m, exec i u = .next (u.setMask m).complete) (r g b : Byte)
    (s : State) :
    ∃ t f, execAll [.clear, i, .setcolor r g b, .composite, .serp, .emit] s = .next t ∧ t.status = s.status ∧
      t.out = s.out ++ [f] := by
  obtain ⟨m, hm⟩ := hi (s.setFb (clearedCells s.npix)).complete
  have hfb : paintCells s.npix m (colorPixel (packColor r g b)) (clearedCells s.npix) =
      writtenCells s.npix fun p => if maskBit m p then colorPixel (packColor r g b) else black := by
    rw [clearedCells_eq, paintCells_writtenCells]
  obtain ⟨t, ht, hstatus, -, hout⟩ := execAll_serp_emit
    (s := s.composed m (packColor r g b) (paintCells s.npix m (colorPixel (packColor r g b)) (clearedCells s.npix))
      (s.k + 4)) hfb (List.length_map _ |>.trans List.length_range)
  refine ⟨t, _, ?_, hstatus, hout⟩
  rw [execAll, exec_clear, next_andThen, execAll, hm]
  exact ht

/-- An operand reduced below its command's bound is the one the command reads. -/
theorem toNat_reduced_le {n : Nat} (d : Nat) (hn : 0 < n) (h : n ≤ 2 ^ 28) :
    (BitVec.ofNat 28 (d % n)).toNat ≤ n - 1 := by
  have hd := Nat.mod_lt d hn
  rw [BitVec.toNat_ofNat, Nat.mod_eq_of_lt (hd.trans_le h)]
  omega

/-- Settles O54: each COUNTER reduces its operand into its digit command's range. -/
theorem countersStayInRange : Obligations.CountersStayInRange := by
  unfold Obligations.CountersStayInRange
  intro d r g b s _ l hl
  simp only [List.mem_cons, List.not_mem_nil, or_false] at hl
  rcases hl with rfl | rfl | rfl
  · exact execAll_counter
      (fun u => ⟨_, exec_glyph2_of_le (toNat_reduced_le d (n := 100) (by decide) (by decide)) u⟩) r g b s
  · exact execAll_counter
      (fun u => ⟨_, exec_glyph4_of_le (toNat_reduced_le d (n := 10000) (by decide) (by decide)) u⟩) r g b s
  · exact execAll_counter
      (fun u => ⟨_, exec_glyph8_of_le (toNat_reduced_le d (n := 100000000) (by decide) (by decide)) u⟩) r g b s

end Sys2Proof.Machine
end

section
/-! PROOFS. SERP is the loop of its pseudocode (40_geometry.md R76). -/

namespace Sys2Proof.Machine

variable {α : Type}

/-- SERP changes FB to what the Geometry Mapper makes of it, and the count. -/
theorem exec_serp_of_serpCells_eq {s : State} {fb : List (Option Pixel)} (h : serpCells s.params s.fb = fb) :
    exec .serp s = .next { s with fb := fb, k := s.k + 1 } := by
  rw [exec_serp, h]
  rfl

/-- The inner loop makes the remaining swaps of its span in order. -/
theorem swapLoop_eq_foldl (n h base left i : Nat) (l : List α) :
    swapLoop n h base left i l =
      ((List.range' i left).map fun i => (base + i, base + h - 1 - i)).foldl (swapCells n) l := by
  induction left generalizing i l with
  | zero => rfl
  | succ left ih => exact ih (i + 1) _

/-- The inner loop makes the swaps of one span. -/
theorem swapLoop_eq_foldl_spanSwaps (n h base : Nat) (l : List α) :
    swapLoop n h base (h / 2) 0 l = (spanSwaps h base).foldl (swapCells n) l := by
  rw [swapLoop_eq_foldl, spanSwaps, List.range_eq_range']

/-- A row pair's start is below N exactly when the pair is one of the ⌈N / 2W⌉ walked ones. -/
theorem rowPair_start_lt_iff {n w q : Nat} (hw : 0 < w) : 2 * w * q < n ↔ q < (n + 2 * w - 1) / (2 * w) := by
  rw [Nat.lt_div_iff_mul_lt (by omega), Nat.mul_comm q]
  omega

/-- The outer loop from row pair q on, with m pairs left, makes the swaps of these m pairs. -/
theorem serpLoop_eq_foldl {p : Params} {off m fuel q : Nat} (hw : 0 < p.w.toNat)
    (hq : q + m = (p.npix + 2 * p.w.toNat - 1) / (2 * p.w.toNat)) (hm : m ≤ fuel) (l : List α) :
    serpLoop p off fuel (2 * p.w.toNat * q) l =
      (List.range' q m).foldl
        (fun l q => (spanSwaps p.h.toNat (2 * p.w.toNat * q + off)).foldl (swapCells p.npix) l) l := by
  induction m generalizing fuel q l with
  | zero =>
    have hend : ¬ 2 * p.w.toNat * q < p.npix := by rw [rowPair_start_lt_iff hw]; omega
    cases fuel with
    | zero => rfl
    | succ fuel => rw [serpLoop, if_neg hend]; rfl
  | succ m ih =>
    obtain ⟨fuel, rfl⟩ : ∃ f, fuel = f + 1 := ⟨fuel - 1, by omega⟩
    have hin : 2 * p.w.toNat * q < p.npix := by rw [rowPair_start_lt_iff hw]; omega
    rw [serpLoop, if_pos hin, swapLoop_eq_foldl_spanSwaps, ← Nat.mul_succ, ih (by omega) (by omega)]
    rfl

/-- With fuel above N the outer loop, started at 0, is the Geometry Mapper. -/
theorem serpLoop_eq_serpCells {p : Params} {fuel : Nat} (hw : 0 < p.w.toNat) (hfuel : p.npix < fuel) (l : List α) :
    serpLoop p (serpOffset p.serpBase p.w.toNat) fuel 0 l = serpCells p l := by
  have hpairs : (p.npix + 2 * p.w.toNat - 1) / (2 * p.w.toNat) ≤ p.npix := by
    rw [← Nat.not_lt, ← rowPair_start_lt_iff hw, Nat.not_lt]
    exact Nat.le_mul_of_pos_left _ (by omega)
  rw [serpCells, serpSwaps, pairStarts, List.foldl_flatMap, List.foldl_map, List.range_eq_range']
  exact serpLoop_eq_foldl hw (q := 0) (Nat.zero_add _) (by omega) l

/-- Settles O41: the loops walk the swaps that SERP makes, in the same order. -/
theorem serpIsItsPseudocode : Obligations.SerpIsItsPseudocode := by
  unfold Obligations.SerpIsItsPseudocode
  refine ⟨decode_encode (i := .serp) rfl, fun s hw fuel hfuel => ?_,
    fun n a b l hl => ⟨fun ha hb j => ?_, fun hab => ?_⟩⟩
  · rw [← serpOffset_eq]
    exact exec_serp_of_serpCells_eq (serpLoop_eq_serpCells hw hfuel s.fb).symm
  · exact getElem?_swapCells hl.ge ha hb j
  · exact swapCells_skipped l (by omega)

end Sys2Proof.Machine
end

section
/-! PROOFS. Degenerate heights, the involution, the permutation and the square grid (40_geometry.md R78 to R81). -/

namespace Sys2Proof.Machine

variable {α : Type} {p : Params}

/-- A grid of one row has no swap (R78). -/
theorem serpSwaps_eq_nil (hh : p.h.toNat = 1) : serpSwaps p = [] := by
  rw [serpSwaps, List.flatMap_eq_nil_iff, hh]
  exact fun _ _ => rfl

/-- The swaps of a span pair its lower half, entry by entry, with the mirror images. -/
theorem mem_spanSwaps {h base : Nat} {ab : Nat × Nat} :
    ab ∈ spanSwaps h base ↔ ∃ i, i < h / 2 ∧ (base + i, base + h - 1 - i) = ab := by
  simp [spanSwaps]

/-- Settles O43: no swap at H = 1, both halves of an odd span leave out its middle, and the pair starts by number. -/
theorem serpDegenerateHeights : Obligations.SerpDegenerateHeights := by
  unfold Obligations.SerpDegenerateHeights
  refine ⟨fun s hh => ?_, fun h base hodd ab hab => ?_, fun n w s hw => mem_pairStarts hw⟩
  · exact exec_serp_of_serpCells_eq (by rw [serpCells, serpSwaps_eq_nil hh, List.foldl_nil])
  · obtain ⟨i, hi, rfl⟩ := mem_spanSwaps.mp hab
    constructor <;> dsimp only <;> omega

/-- Where the spans are disjoint, the source of a pixel is a pixel, and its own source is the first one (R79). -/
theorem serpSource_serpSource {j : Nat} (hw : 0 < p.w.toNat) (hh : p.h.toNat ≤ 2 * p.w.toNat) (hj : j < p.npix) :
    serpSource p (serpOffset p.serpBase p.w.toNat) j < p.npix ∧
      serpSource p (serpOffset p.serpBase p.w.toNat) (serpSource p (serpOffset p.serpBase p.w.toNat) j) = j := by
  by_cases hfix : serpSource p (serpOffset p.serpBase p.w.toNat) j = j
  · rw [hfix]
    exact ⟨hj, hfix⟩
  · obtain ⟨hsrc, hmem | hmem⟩ := mem_serpSwaps_of_serpSource_ne hw hfix
    · exact ⟨hsrc, (serpSource_of_mem_serpSwaps hw hh hmem hj hsrc).2⟩
    · exact ⟨hsrc, (serpSource_of_mem_serpSwaps hw hh hmem hsrc hj).1⟩

/-- Where the spans are disjoint, the Geometry Mapper undoes itself (R79). -/
theorem serpCells_serpCells {l : List α} (hw : 0 < p.w.toNat) (hh : p.h.toNat ≤ 2 * p.w.toNat)
    (hl : l.length = p.npix) : serpCells p (serpCells p l) = l := by
  refine List.ext_getElem? fun j => ?_
  rcases Nat.lt_or_ge j p.npix with hj | hj
  · obtain ⟨hsrc, hback⟩ := serpSource_serpSource hw hh hj
    rw [getElem?_serpCells hw hh (by simp [hl]) hj, getElem?_serpCells hw hh hl.ge hsrc, hback]
  · rw [List.getElem?_eq_none (by simpa [hl] using hj), List.getElem?_eq_none (hl.trans_le hj)]

/-- The swaps of a column of ten pixels: the spans at 0, 2, 4, 6 and 8 overlap (R77). -/
theorem serpSwaps_tenPixelColumn (hw : p.w = 1#16) (hh : p.h = 10#16) (hbase : p.serpBase = .even) :
    serpSwaps p = [0, 2, 4, 6, 8].flatMap (spanSwaps 10) := by
  rw [serpSwaps, Params.npix, hw, hh, hbase]
  rfl

/-- Settles O44: a source's source is the pixel itself; the column of ten pixels is computed. -/
theorem serpTwiceRestoresDisjointSpans : Obligations.SerpTwiceRestoresDisjointSpans := by
  unfold Obligations.SerpTwiceRestoresDisjointSpans
  refine ⟨fun s t u hw hh hlen ht hu => ?_, fun p hw hh hbase => ?_⟩
  · cases ht
    cases hu
    exact serpCells_serpCells hw hh hlen
  · rw [serpCells, serpCells, serpSwaps_tenPixelColumn hw hh hbase, Params.npix, hw, hh]
    decide

/-- Settles O45: swaps permute the cells, and equal cells cannot be told apart. -/
theorem serpPermutesPixels : Obligations.SerpPermutesPixels := by
  unfold Obligations.SerpPermutesPixels
  refine ⟨fun s t ht => ?_, fun s px hfb => ?_⟩
  · cases ht
    exact perm_serpCells s.params s.fb
  · exact exec_serp_of_serpCells_eq (by rw [hfb, serpCells_replicate])

/-- `serpSource` past the end of span q, but in its row pair: the pixel itself. -/
theorem serpSource_past_span {off q i : Nat} (hi : p.h.toNat ≤ i) (hi' : i < 2 * p.w.toNat) :
    serpSource p off (2 * p.w.toNat * q + off + i) = 2 * p.w.toNat * q + off + i := by
  have hq : (2 * p.w.toNat * q + off + i - off) / (2 * p.w.toNat) = q := by
    rw [show 2 * p.w.toNat * q + off + i - off = i + 2 * p.w.toNat * q by omega,
      Nat.add_mul_div_left _ _ (by omega), Nat.div_eq_of_lt hi', Nat.zero_add]
  unfold serpSource
  simp only [hq]
  exact if_neg (by omega)

/-- The row-major index of a pixel of the grid is below N. -/
theorem rowMajor_lt_npix {r c : Nat} (hr : r < p.h.toNat) (hc : c < p.w.toNat) : r * p.w.toNat + c < p.npix := by
  rw [Params.npix, Nat.mul_comm r, Nat.mul_comm p.w.toNat p.h.toNat]
  exact Nat.mul_add_lt_mul_of_lt_of_lt hr hc

/-- On a square grid at base offset 0, the source of a pixel is its mirror in an even row, and the pixel itself in an
odd row (R81). -/
theorem serpSource_square {r c : Nat} (hsq : p.h.toNat = p.w.toNat) (hr : r < p.h.toNat) (hc : c < p.w.toNat) :
    serpSource p 0 (r * p.w.toNat + c) =
      r * p.w.toNat + if r % 2 = 0 then p.w.toNat - 1 - c else c := by
  rcases Nat.even_or_odd' r with ⟨q, rfl | rfl⟩
  · have hrow : 2 * q * p.w.toNat = 2 * p.w.toNat * q := by ring
    have hpix := rowMajor_lt_npix hr (show p.w.toNat - 1 - c < p.w.toNat by omega)
    have hmirror := serpSource_of_mem_span (p := p) (off := 0) (q := q) (i := c) (by omega) (by omega) (by omega)
    rw [if_pos (by omega), hrow]
    rw [Nat.add_zero] at hmirror
    omega
  · have hrow : (2 * q + 1) * p.w.toNat + c = 2 * p.w.toNat * q + 0 + (p.w.toNat + c) := by ring
    rw [if_neg (by omega), hrow]
    exact serpSource_past_span (by omega) (by omega)

/-- Settles O46: pixel by pixel, from the source of each. -/
theorem squareGridIsTrueSerpentine : Obligations.SquareGridIsTrueSerpentine := by
  unfold Obligations.SquareGridIsTrueSerpentine
  intro s hbase hsq hlen
  have hsq' : s.params.h.toNat = s.params.w.toNat := congrArg BitVec.toNat hsq
  refine ⟨serpCells s.params s.fb, exec_serp_of_serpCells_eq rfl, fun r c hr hc => ?_⟩
  have hoff : serpOffset s.params.serpBase s.params.w.toNat = 0 := by rw [hbase]; rfl
  rw [getElem?_serpCells (by omega) (by omega) hlen.ge (rowMajor_lt_npix hr hc), hoff, serpSource_square hsq' hr hc]
  split <;> rfl

end Sys2Proof.Machine
end

section
/-! PROOFS. The Frame Compositor's commands that load COLOR and MASK (41_compositor.md R85 to R90). -/

namespace Sys2Proof.Machine

/-- Settles O33: COLOR holds the channels where SETCOLOR's format has them, and its reserved field is checked. -/
theorem setcolorLoadsColor : Obligations.SetcolorLoadsColor := by
  unfold Obligations.SetcolorLoadsColor
  refine ⟨fun r g b => decode_encode (i := .setcolor r g b) rfl, fun s r g b => ⟨packColor r g b, rfl, ?_⟩,
    fun w hop hres => ?_⟩
  · exact Pixel.mk.inj (colorPixel_packColor r g b)
  · obtain ⟨-, hformatC, -⟩ := reservedFieldOrCountIsIllegal
    exact (hformatC w (by simp [hop]) hres).2

/-- Settles O34: the mask is written as a whole. -/
theorem maskclrEmptiesMask : Obligations.MaskclrEmptiesMask := by
  unfold Obligations.MaskclrEmptiesMask
  exact ⟨decode_encode (i := .maskclr) rfl, fun _ => rfl⟩

/-- MASKPUSH appends the pushed bits that still fit (R89, R90). -/
theorem exec_maskpush_eq_append_take (cnt : BitVec 5) (data : BitVec 16) (s : State) :
    exec (.maskpush cnt data) s =
      .next (s.setMask (s.mask ++ (pushedBits cnt data).take (s.params.mmax.toNat - s.mask.length))).complete := by
  rw [exec_maskpush, pushBits_eq]

/-- Settles O35: the bits that fit are appended, and format M checks the reserved field and the count. -/
theorem maskpushAppendsBits : Obligations.MaskpushAppendsBits := by
  unfold Obligations.MaskpushAppendsBits
  refine ⟨fun cnt data hlow hhigh => decode_encode (i := .maskpush cnt data) (countInRange_iff.mpr ⟨hlow, hhigh⟩),
    fun s cnt data _ _ => exec_maskpush_eq_append_take cnt data s, fun w hop hbad => ?_⟩
  obtain ⟨-, -, hformatM⟩ := reservedFieldOrCountIsIllegal
  exact (hformatM w hop hbad).2

/-- A push onto a full mask leaves it as it is (R90). -/
theorem pushBits_full {cap : Nat} {mask : List Bool} (bits : List Bool) (h : mask.length = cap) :
    pushBits cap mask bits = mask := by
  rw [pushBits_eq, h, Nat.sub_self, List.take_zero, List.append_nil]

/-- Below the capacity, a mask has the bits that it would have without one. -/
theorem maskBit_pushBits {cap p : Nat} {mask : List Bool} (bits : List Bool) (hmask : mask.length ≤ cap)
    (hp : p < cap) : maskBit (pushBits cap mask bits) p = maskBit (mask ++ bits) p := by
  have htake : (mask ++ bits).take cap = pushBits cap mask bits := by
    rw [List.take_append, List.take_of_length_le hmask, pushBits_eq]
  rw [← htake, maskBit_take _ hp]

/-- Settles O36: N ≤ NMAX ≤ MMAX, so every pixel is below the capacity. -/
theorem droppedPushesChangeNoFrame : Obligations.DroppedPushesChangeNoFrame := by
  unfold Obligations.DroppedPushesChangeNoFrame
  refine ⟨fun s cnt data hfull => ?_, fun s t cnt data hvalid hmask ht p hp => ?_⟩
  · rw [exec_maskpush, pushBits_full _ hfull]
    rfl
  · obtain ⟨-, -, hnmax, hmmax, -⟩ := hvalid
    cases ht
    exact maskBit_pushBits (pushedBits cnt data) hmask (hp.trans_le (hnmax.trans hmmax))

end Sys2Proof.Machine
end

section
/-! PROOFS. The Frame Compositor's commands that write FB: COMPOSITE alone, in a sequence of layers, and CLEAR
(41_compositor.md R83, R84, R92, R93). -/

namespace Sys2Proof.Machine

/-! ### COMPOSITE -/

theorem exec_composite (s : State) :
    exec .composite s = .next (s.setFb (paintCells s.npix s.mask (colorPixel s.color) s.fb)).complete := rfl

theorem getElem?_paintCells_selected {n p : Nat} {mask : List Bool} {fb : List (Option Pixel)} (c : Pixel)
    (hp : p < n) (hfb : fb.length = n) (h : maskBit mask p = true) :
    (paintCells n mask c fb)[p]? = some (some c) := by
  have hcell : p < fb.length := hp.trans_eq hfb.symm
  rw [getElem?_paintCells, List.getElem?_eq_getElem hcell]
  simp [hp, h]

theorem getElem?_paintCells_unselected {p : Nat} {mask : List Bool} (n : Nat) (c : Pixel) (fb : List (Option Pixel))
    (h : maskBit mask p = false) : (paintCells n mask c fb)[p]? = fb[p]? := by
  simp [getElem?_paintCells, h]

/-- Settles O37: a pixel is selected exactly where the mask holds the bit 1. -/
theorem compositePaintsSelectedPixels : Obligations.CompositePaintsSelectedPixels := by
  unfold Obligations.CompositePaintsSelectedPixels
  refine ⟨decode_encode (i := .composite) rfl, fun s hlen =>
    ⟨paintCells s.npix s.mask (colorPixel s.color) s.fb, exec_composite s, (length_paintCells ..).trans hlen,
      fun p hp => ⟨fun hbit => ?_, fun hbit => ?_⟩⟩⟩
  · exact getElem?_paintCells_selected _ hp hlen (maskBit_eq_true_iff.mpr hbit)
  · refine getElem?_paintCells_unselected _ _ _ (Bool.eq_false_iff.mpr fun hset => ?_)
    exact hbit (maskBit_eq_true_iff.mp hset)

/-! ### Layers one after another -/

/-- One layer on a buffer of N cells: what every pixel shows after it (R93). -/
theorem exec_composite_layer {s : State} (m : List Bool) (c : BitVec 24) (hlen : s.fb.length = s.npix) :
    ∃ t, exec .composite ((s.setMask m).setColor c) = .next t ∧ t.fb.length = t.npix ∧ t.npix = s.npix ∧
      ∀ p, p < s.npix → t.readPixel p = if maskBit m p then some (colorPixel c) else s.readPixel p := by
  refine ⟨_, exec_composite _, (length_paintCells ..).trans hlen, rfl, fun p hp => ?_⟩
  rw [State.complete_readPixel, readPixel_setFb]
  cases hbit : maskBit m p with
  | true => exact congrArg Option.join (getElem?_paintCells_selected (colorPixel c) hp hlen hbit)
  | false => exact congrArg Option.join (getElem?_paintCells_unselected s.npix (colorPixel c) s.fb hbit)

/-- Settles O38, by induction on the layers: the layers after the first decide, and where none of them selects a pixel,
the first one does. -/
theorem lastLayerWins : Obligations.LastLayerWins := by
  unfold Obligations.LastLayerWins
  intro layers
  induction layers with
  | nil => exact fun s hlen => ⟨s, rfl, hlen, fun _ _ => rfl⟩
  | cons l rest ih =>
    obtain ⟨m, c⟩ := l
    intro s hlen
    obtain ⟨t, ht, htlen, htpix, hfirst⟩ := exec_composite_layer m c hlen
    obtain ⟨u, hu, hulen, hrest⟩ := ih t htlen
    refine ⟨u, by rw [paintLayers, ht, next_andThen, hu], hulen.trans htpix, fun p hp => ?_⟩
    rw [hrest p (htpix ▸ hp), hfirst p hp, List.filter_cons]
    cases hbit : maskBit m p with
    | false => rfl
    | true =>
      simp only [if_true, List.getLast?_cons]
      cases (rest.filter fun l => maskBit l.1 p).getLast? <;> rfl

/-! ### CLEAR -/

/-- Settles O32: N written black cells. -/
theorem clearBlackensEveryPixel : Obligations.ClearBlackensEveryPixel := by
  unfold Obligations.ClearBlackensEveryPixel
  exact ⟨decode_encode (i := .clear) rfl, fun s =>
    ⟨clearedCells s.npix, exec_clear s, length_clearedCells _, fun _ hp => getElem?_clearedCells hp⟩⟩

/-- Black pixels are sent as zero bytes (R42, R84). -/
theorem flatMap_pixelBytes_black (n : Nat) :
    (List.replicate n black).flatMap pixelBytes = List.replicate (3 * n) 0#8 := by
  have hblack : pixelBytes black = List.replicate 3 0#8 := rfl
  rw [List.flatMap_replicate, hblack, List.flatten_replicate_replicate, Nat.mul_comm]

/-- SERP leaves a cleared buffer as it is (R80, R84). -/
theorem exec_serp_cleared {t : State} (h : t.fb = clearedCells t.npix) : exec .serp t = .next t.complete :=
  serpPermutesPixels.2 t (some black) h

/-- EMIT of a cleared buffer sends zero bytes (R84). -/
theorem serialize_cleared {t : State} (h : t.fb = clearedCells t.npix) :
    t.serialize = .ok (List.replicate (3 * t.npix) 0#8) := by
  rw [← flatMap_pixelBytes_black]
  exact serialize_of_written (h.trans List.map_replicate.symm) List.length_replicate

/-- Settles O39: the buffer stays cleared from CLEAR to EMIT, so EMIT sends N black pixels. -/
theorem clearSerpEmitSendsZeroBytes : Obligations.ClearSerpEmitSendsZeroBytes := by
  unfold Obligations.ClearSerpEmitSendsZeroBytes
  intro s
  have hemit := exec_emit_of_serialize
    (serialize_cleared (t := (s.setFb (clearedCells s.npix)).complete.complete) rfl)
  exact ⟨_, _, _, exec_clear s, exec_serp_cleared rfl, rfl, hemit, rfl⟩

end Sys2Proof.Machine
end

section
/-! PROOFS. The Digit Font: glyph bits, decimal digits, and the masks the three digit commands load (42_font.md R97 to
R107). -/

namespace Sys2Proof.Machine

/-! ### Glyph rows and decimal digits -/

theorem romRow_eq (rom : GlyphRom) (d : Fin 10) (r : Fin 8) : romRow rom d r = rom[d][r] := by
  simp [romRow]

/-- Settles O47: the ROM has a row word at every digit 0..9 and row 0..7. -/
theorem glyphColumnsReadLeftToRight : Obligations.GlyphColumnsReadLeftToRight := by
  unfold Obligations.GlyphColumnsReadLeftToRight
  intro rom d r c _
  rw [glyphBit, romRow_eq]

/-- Settles O48: the floor quotients and remainders are the digits the model takes. -/
theorem decimalDecomposition : Obligations.DecimalDecomposition := by
  unfold Obligations.DecimalDecomposition
  refine ⟨fun d hd => ⟨d / 10, d % 10, rfl, rfl, rfl, ?_⟩,
    fun d hd => ⟨d / 1000, d / 100 % 10, d / 10 % 10, d % 10, rfl, rfl, rfl, rfl, rfl, ?_⟩, fun d hd => ?_⟩
  all_goals omega

/-! ### Where the bits of two and of four digits stand -/

/-- Digit k of two begins at column 4k of a row of 8 (R100). -/
theorem getElem?_render2 (rom : GlyphRom) (d : Nat) {r k c : Nat} (hr : r < 8) (hk : k < 2) (hc : c < 4) :
    (render2 rom d)[8 * r + (4 * k + c)]? = some (glyphBit rom (digits2 d)[k] r c) :=
  getElem?_renderDigits rom (digits2 d) hr hk hc

/-- Digit k of four, the thousands at k = 0, begins at column 4k of a row of 16 (R103). -/
theorem getElem?_render4 (rom : GlyphRom) (d : Nat) {r k c : Nat} (hr : r < 8) (hk : k < 4) (hc : c < 4) :
    (render4 rom d)[16 * r + (4 * k + c)]? = some (glyphBit rom (digits4 d)[k] r c) :=
  getElem?_renderDigits rom (digits4 d) hr hk hc

/-! ### Where the bits of a row-by-row join come from -/

/-- `getElem?_rows` where only the rows of the list are known to have the width. -/
theorem getElem?_rows_of_lt {α : Type} {rows width : Nat} {f : Nat → List α}
    (hf : ∀ r < rows, (f r).length = width) {r c : Nat} (hr : r < rows) (hc : c < width) :
    ((List.range rows).flatMap f)[width * r + c]? = (f r)[c]? := by
  have hmod : (List.range rows).flatMap f = (List.range rows).flatMap fun r => f (r % rows) :=
    List.flatMap_congr fun r hr => by rw [Nat.mod_eq_of_lt (List.mem_range.mp hr)]
  rw [hmod, getElem?_rows (fun r => hf _ (Nat.mod_lt r (by omega))) hr hc, Nat.mod_eq_of_lt hr]

/-- Row r of the join is row r of the high half, then row r of the low half (R106). -/
theorem getElem?_joinHalves_rowwise {a b : List Bool} (ha : a.length = 128) (hb : b.length = 128) {r c : Nat}
    (hr : r < 8) (hc : c < 32) :
    (joinHalves .rowwise a b)[32 * r + c]? = if c < 16 then a[16 * r + c]? else b[16 * r + (c - 16)]? := by
  have hhalf (l : List Bool) (hl : l.length = 128) (r : Nat) (hr : r < 8) :
      ((l.drop (16 * r)).take 16).length = 16 := by
    rw [List.length_take, List.length_drop]
    omega
  have hrow (r : Nat) (hr : r < 8) :
      ((a.drop (16 * r)).take 16 ++ (b.drop (16 * r)).take 16).length = 32 := by
    rw [List.length_append, hhalf a ha r hr, hhalf b hb r hr]
  rw [joinHalves, getElem?_rows_of_lt hrow hr hc, List.getElem?_append, hhalf a ha r hr]
  split
  · rw [List.getElem?_take_of_lt ‹_›, List.getElem?_drop]
  · rw [List.getElem?_take_of_lt (by omega), List.getElem?_drop]

/-- The place in A ++ B of the bit at index j of the row-by-row join: row j / 32 of A or of B. -/
def rowwisePlace (j : Nat) : Nat :=
  if j % 32 < 16 then 16 * (j / 32) + j % 32 else 128 + (16 * (j / 32) + (j % 32 - 16))

theorem getElem?_joinHalves_rowwise_eq_place {a b : List Bool} (ha : a.length = 128) (hb : b.length = 128) {j : Nat}
    (hj : j < 256) : (joinHalves .rowwise a b)[j]? = (a ++ b)[rowwisePlace j]? := by
  have hbit := getElem?_joinHalves_rowwise ha hb (r := j / 32) (c := j % 32) (by omega) (by omega)
  rw [Nat.div_add_mod] at hbit
  rw [hbit, rowwisePlace]
  split
  · rw [List.getElem?_append_left (by omega)]
  · rw [List.getElem?_append_right (by omega), ha, Nat.add_sub_cancel_left]

theorem rowwisePlace_lt {j : Nat} (hj : j < 256) : rowwisePlace j < 256 := by
  unfold rowwisePlace
  split <;> omega

theorem rowwisePlace_eq_self_iff {j : Nat} (hj : j < 256) : rowwisePlace j = j ↔ j < 16 ∨ 240 ≤ j := by
  unfold rowwisePlace
  split <;> omega

/-- Settles O53: the row-by-row join takes index j from `rowwisePlace j`, the end-to-end join from j itself. -/
theorem layoutsAgreeOnlyAtTheEnds : Obligations.LayoutsAgreeOnlyAtTheEnds := by
  unfold Obligations.LayoutsAgreeOnlyAtTheEnds
  exact ⟨rowwisePlace,
    fun a b ha hb j hj => ⟨rfl, getElem?_joinHalves_rowwise_eq_place ha hb hj, rowwisePlace_lt hj⟩,
    fun j hj => rowwisePlace_eq_self_iff hj⟩

/-! ### The digit commands -/

/-- Above its range a digit command sets STATUS.RANGE and leaves a mask of its length (R124). -/
theorem exists_loadDigits_of_lt {max : Nat} {d : BitVec 28} (hd : max < d.toNat) (len : Nat)
    (render : Nat → List Bool) (s : State) :
    ∃ m, m.length = len ∧ loadDigits max len render d s =
      .next { s with mask := m, status := s.status ||| 2#32, draws := s.draws + 1, k := s.k + 1 } := by
  rcases loadDigits_cases max len render d s with ⟨hle, -⟩ | ⟨-, e⟩
  · omega
  · exact ⟨(List.range len).map (Config.freeMaskBit s.draws len d), by simp, e⟩

/-- Settles O49: column c of a row belongs to digit c / 4. -/
theorem glyph2LoadsTwoDigits : Obligations.Glyph2LoadsTwoDigits := by
  unfold Obligations.Glyph2LoadsTwoDigits
  refine fun s d => ⟨decode_encode (i := .glyph2 d) rfl, fun hd =>
    ⟨render2 s.params.rom d.toNat, exec_glyph2_of_le hd s, length_render2 _ _, fun r c hr hc => ?_⟩,
    fun hd => exists_loadDigits_of_lt hd ..⟩
  split
  · have hhi := getElem?_render2 s.params.rom d.toNat (k := 0) hr (by omega) ‹c < 4›
    rwa [Nat.mul_zero, Nat.zero_add] at hhi
  · have hlo := getElem?_render2 s.params.rom d.toNat (k := 1) (c := c - 4) hr (by omega) (by omega)
    rwa [show 4 * 1 + (c - 4) = c by omega] at hlo

/-- Settles O50: the digits stand side by side, four columns each. -/
theorem glyph4LoadsFourDigits : Obligations.Glyph4LoadsFourDigits := by
  unfold Obligations.Glyph4LoadsFourDigits
  refine fun s d => ⟨decode_encode (i := .glyph4 d) rfl, fun hd =>
    ⟨render4 s.params.rom d.toNat, exec_glyph4_of_le hd s, length_render4 _ _, fun r c hr hc => ?_⟩,
    fun hd => exists_loadDigits_of_lt hd ..⟩
  have hdigit (k : Nat) (hk : k < 4) := getElem?_render4 s.params.rom d.toNat hr hk hc
  simp only [← Nat.add_assoc] at hdigit
  exact ⟨hdigit 0 (by decide), hdigit 1 (by decide), hdigit 2 (by decide), hdigit 3 (by decide)⟩

/-- Settles O51: the join of the two renders, read in the layout of the block. -/
theorem glyph8JoinsTwoRenders : Obligations.Glyph8JoinsTwoRenders := by
  unfold Obligations.Glyph8JoinsTwoRenders
  refine fun s d => ⟨decode_encode (i := .glyph8 d) rfl, fun hd =>
    ⟨render8 s.params.rom s.params.glyph8Layout d.toNat, exec_glyph8_of_le hd s, length_render8 _ _ _,
      fun hflat j _ => ?_, fun hrowwise r c hr hc => ?_⟩,
    fun hd => exists_loadDigits_of_lt hd ..⟩
  · rw [render8, hflat, joinHalves, List.getElem?_append, length_render4]
  · rw [render8, hrowwise]
    exact getElem?_joinHalves_rowwise (length_render4 _ _) (length_render4 _ _) hr hc

end Sys2Proof.Machine
end

section
/-! PROOFS. Frame output: the frames of EMIT and FILL (43_output.md R109 to R114). -/

namespace Sys2Proof.Machine

/-! ### EMIT -/

theorem readPixel_of_fbw {s : State} {p : Nat} (h : s.fbw p = true) :
    s.readPixel p = some ((s.readPixel p).getD black) := by
  obtain ⟨px, hpx⟩ := Option.isSome_iff_exists.mp h
  rw [hpx, Option.getD_some]

theorem readPixel_eq_none_of_fbw {s : State} {p : Nat} (h : s.fbw p = false) : s.readPixel p = none :=
  Option.isNone_iff_eq_none.mp (Option.isSome_eq_false_iff.mp h)

/-- Where every pixel is written, serializing gives their bytes, whatever cells lie past the last one (R109). -/
theorem serialize_of_fbw {s : State} (h : ∀ p, p < s.npix → s.fbw p = true) :
    s.serialize = .ok ((List.range s.npix).flatMap fun q => pixelBytes ((s.readPixel q).getD black)) := by
  rw [State.serialize, serializeFrom_eq_ok fun q _ hq => readPixel_of_fbw (h q (by omega)), List.range_eq_range']

/-- The converse of `serializeFrom_error`: serializing stops at the first index without a written pixel (R130). -/
theorem serializeFrom_eq_error {read : Nat → Option Pixel} {p count q : Nat} (hp : p ≤ q) (hq : q < p + count)
    (hnone : read q = none) (hwritten : ∀ j, p ≤ j → j < q → (read j).isSome) :
    serializeFrom read p count = .error q := by
  induction count generalizing p with
  | zero => omega
  | succ n ih =>
    rcases Nat.eq_or_lt_of_le hp with rfl | hlt
    · rw [serializeFrom, hnone]
    · obtain ⟨px, hpx⟩ := Option.isSome_iff_exists.mp (hwritten p le_rfl hlt)
      rw [serializeFrom, hpx, ih hlt (by omega) fun j hj => hwritten j (by omega)]

theorem exec_emit_of_unwritten {s : State} {p : Nat} (hp : p < s.npix) (hunwritten : s.fbw p = false)
    (hwritten : ∀ q, q < p → s.fbw q = true) : exec .emit s = .fault (.uninitRead p) := by
  have hstop : s.serialize = .error p :=
    serializeFrom_eq_error (Nat.zero_le p) (by omega) (readPixel_eq_none_of_fbw hunwritten) fun q _ => hwritten q
  simp only [exec, execEmit, hstop]

/-- Byte k of a frame of n pixels belongs to pixel k / 3 (R109). -/
theorem getElem?_flatMap_pixelBytes (px : Nat → Pixel) {n k : Nat} (hk : k < 3 * n) :
    ((List.range n).flatMap fun q => pixelBytes (px q))[k]? = (pixelBytes (px (k / 3)))[k % 3]? := by
  have hbyte := getElem?_rows (f := fun q => pixelBytes (px q)) (fun q => length_pixelBytes (px q))
    (show k / 3 < n by omega) (show k % 3 < 3 by omega)
  rwa [Nat.div_add_mod] at hbyte

theorem getElem?_pixelBytes (px : Pixel) {c : Nat} (hc : c < 3) :
    (pixelBytes px)[c]? = some (if c = 0 then px.r else if c = 1 then px.g else px.b) := by
  interval_cases c <;> rfl

/-- Settles O55: serializing gives three bytes for each pixel, and stops at the first one that is not written. -/
theorem emitSerializesBuffer : Obligations.EmitSerializesBuffer := by
  unfold Obligations.EmitSerializesBuffer
  refine ⟨decode_encode (i := .emit) rfl, fun s hwritten => ?_, fun s p => exec_emit_of_unwritten⟩
  have hframe := serialize_of_fbw hwritten
  refine ⟨_, exec_emit_of_serialize hframe, length_of_serializeFrom hframe, fun k px hk hpx => ?_⟩
  rw [getElem?_flatMap_pixelBytes _ hk, hpx, Option.getD_some, getElem?_pixelBytes px (by omega)]

/-- Settles O56: EMIT leaves the buffer, so the second one serializes the same pixels. -/
theorem emitTwiceSendsTheSameFrame : Obligations.EmitTwiceSendsTheSameFrame := by
  unfold Obligations.EmitTwiceSendsTheSameFrame
  intro s t ht
  rcases execEmit_cases s with ⟨f, hf, e⟩ | ⟨p, -, e⟩ <;> cases e.symm.trans ht
  have hagain : (s.emitFrame f).complete.serialize = .ok f := hf
  exact ⟨rfl, f, _, rfl, exec_emit_of_serialize hagain, List.append_assoc .., rfl⟩

/-! ### FILL -/

theorem exec_fill (r g b : Byte) (s : State) :
    exec (.fill r g b) s = .next (s.emitFrame (uniformFrame s.npix { r := r, g := g, b := b })).complete := rfl

theorem uniformFrame_eq_flatMap_range (n : Nat) (px : Pixel) :
    uniformFrame n px = (List.range n).flatMap fun _ => pixelBytes px := by
  rw [uniformFrame, List.flatMap_def, List.map_const', List.length_range]

theorem getElem?_uniformFrame (px : Pixel) {n p c : Nat} (hp : p < n) (hc : c < 3) :
    (uniformFrame n px)[3 * p + c]? = (pixelBytes px)[c]? := by
  rw [uniformFrame_eq_flatMap_range]
  exact getElem?_rows (fun _ => length_pixelBytes px) hp hc

/-- Settles O57: the uniform frame byte by byte, and format C checks the reserved field. -/
theorem fillSendsUniformFrame : Obligations.FillSendsUniformFrame := by
  unfold Obligations.FillSendsUniformFrame
  refine ⟨fun r g b => decode_encode (i := .fill r g b) rfl, fun s r g b =>
    ⟨_, exec_fill r g b s, length_uniformFrame .., fun p hp => ?_⟩, fun w hop hres => ?_⟩
  · have hbyte (c : Nat) (hc : c < 3) := getElem?_uniformFrame { r := r, g := g, b := b } hp hc
    exact ⟨hbyte 0 (by decide), hbyte 1 (by decide), hbyte 2 (by decide)⟩
  · obtain ⟨-, hformatC, -⟩ := reservedFieldOrCountIsIllegal
    exact (hformatC w (by simp [hop]) hres).2

/-- A painted buffer is serialized to FILL's frame (R114). -/
theorem serialize_painted {u : State} {px : Pixel} (h : u.fb = List.replicate u.npix (some px)) :
    u.serialize = .ok (uniformFrame u.npix px) := by
  rw [uniformFrame, ← List.flatMap_replicate]
  exact serialize_of_written (h.trans List.map_replicate.symm) List.length_replicate

/-- Settles O58: SERP leaves a painted buffer as it is, so EMIT serializes the same pixels before and after it. -/
theorem fillEqualsEmitOfPaintedBuffer : Obligations.FillEqualsEmitOfPaintedBuffer := by
  unfold Obligations.FillEqualsEmitOfPaintedBuffer
  intro s u r g b hsize hpainted
  have hframe : u.serialize = .ok (uniformFrame s.npix { r := r, g := g, b := b }) :=
    hsize ▸ serialize_painted hpainted
  obtain ⟨-, hserp⟩ := serpPermutesPixels
  exact ⟨_, _, _, _, u.complete, exec_fill r g b s, rfl, rfl, rfl, exec_emit_of_serialize hframe, rfl,
    hserp u _ hpainted, exec_emit_of_serialize (s := u.complete) hframe, rfl⟩

end Sys2Proof.Machine
end

section
/-! PROOFS. Control commands: illegal words, NOP and CLRSTAT (44_control.md R117, R118, R120). -/

namespace Sys2Proof.Machine

/-- Raising a condition sets its flag and keeps the other one (R123, R131). -/
theorem flag_raise (s : State) (c c' : Condition) : (s.raise c).flag c' = (s.flag c' || decide (c' = c)) := by
  rw [State.flag, State.raise_status, getLsbD_statusWith]
  cases c <;> cases c' <;> rfl

theorem ill_raise_ill (s : State) : (s.raise .ill).ill = true :=
  (flag_raise s .ill .ill).trans (Bool.or_true _)

theorem range_raise_ill (s : State) : (s.raise .ill).range = s.range :=
  (flag_raise s .ill .range).trans (Bool.or_false _)

/-- Settles O12: the cause plays no part in what an illegal word does, and raising ILL writes no other flag. -/
theorem illegalWordOnlySetsIll : Obligations.IllegalWordOnlySetsIll := by
  unfold Obligations.IllegalWordOnlySetsIll
  intro w c hw
  have hcommand : (decode w).isCommand = false := by rw [hw]; rfl
  exact ⟨illegalEffect_of_not_isCommand hcommand, fun s => ⟨ill_raise_ill s, range_raise_ill s⟩⟩

/-- NOP has one word, its encoding (R117). -/
theorem decode_eq_nop_iff {w : Word} : decode w = .command .nop ↔ w = 0x00000000#32 := by
  obtain ⟨hnop, -⟩ := wordsOfAssemblyTable
  constructor
  · intro h
    exact (encode_of_decode h).1.symm.trans hnop
  · intro h
    rw [h, ← hnop]
    exact decode_encode rfl

theorem exec_nop (s : State) : exec .nop s = .next { s with k := s.k + 1 } := rfl

/-- Settles O25: the word is NOP's encoding, and format Z checks the operand field. -/
theorem nopOnlyCounts : Obligations.NopOnlyCounts := by
  unfold Obligations.NopOnlyCounts
  refine ⟨fun w => decode_eq_nop_iff, exec_nop, fun w hop hres => ?_⟩
  obtain ⟨hformatZ, -⟩ := reservedFieldOrCountIsIllegal
  exact (hformatZ w (by simp [hop]) hres).2

theorem exec_clrstat (s : State) :
    exec .clrstat s = .next { s with status := statusCleared s.status, k := s.k + 1 } := rfl

/-- Settles O26: the two flags are exactly the bits that clearing STATUS writes, and format Z checks the operand
field. -/
theorem clrstatClearsBothFlags : Obligations.ClrstatClearsBothFlags := by
  unfold Obligations.ClrstatClearsBothFlags
  refine ⟨decode_encode (i := .clrstat) rfl, fun s => ⟨_, exec_clrstat s, ?ill, ?range, fun j hj => ?kept⟩,
    fun w hop hres => ?illegal⟩
  case ill => exact (getLsbD_statusCleared s.status 0).trans (by simp)
  case range => exact (getLsbD_statusCleared s.status 1).trans (by simp)
  case kept => exact (getLsbD_statusCleared s.status j).trans (by simp [hj])
  case illegal =>
    obtain ⟨hformatZ, -⟩ := reservedFieldOrCountIsIllegal
    exact (hformatZ w (by simp [hop]) hres).2

end Sys2Proof.Machine
end

section
/-! PROOFS. The two conditions and their flags, and what no command does (60_exceptions.md R123, R124, R126, R130). -/

namespace Sys2Proof.Machine

variable {i : Instr} {w : Word} {s t : State}

/-! ### Digit commands above their range (R124) -/

theorem outOfRange_iff : Instr.outOfRange i = true ↔
    ∃ d, (i = .glyph2 d ∧ 99 < d.toNat) ∨ (i = .glyph4 d ∧ 9999 < d.toNat) ∨ (i = .glyph8 d ∧ 99999999 < d.toNat) := by
  cases i <;> simp [Instr.outOfRange]

/-- A digit command above its range raises RANGE and leaves a mask of its length, with nothing said of the bits. -/
theorem exec_of_outOfRange (hr : Instr.outOfRange i = true) (s : State) :
    ∃ m, m.length = (if i.opcode = 0x7#4 then 64 else if i.opcode = 0x8#4 then 128 else 256) ∧
      exec i s = .next { s with mask := m, status := s.status ||| 2#32, draws := s.draws + 1, k := s.k + 1 } := by
  obtain ⟨d, ⟨rfl, hd⟩ | ⟨rfl, hd⟩ | ⟨rfl, hd⟩⟩ := outOfRange_iff.mp hr
  · exact exists_loadDigits_of_lt hd 64 (render2 s.params.rom) s
  · exact exists_loadDigits_of_lt hd 128 (render4 s.params.rom) s
  · exact exists_loadDigits_of_lt hd 256 (render8 s.params.rom s.params.glyph8Layout) s

/-- The word of a digit command above its range carries that command's opcode and the operand itself. -/
theorem opcodeOf_operandOf_of_outOfRange (hi : decode w = .command i) (hr : Instr.outOfRange i = true) :
    opcodeOf w = i.opcode ∧
      ((i.opcode = 0x7#4 ∧ 99 < (operandOf w).toNat) ∨ (i.opcode = 0x8#4 ∧ 9999 < (operandOf w).toNat) ∨
        (i.opcode = 0x9#4 ∧ 99999999 < (operandOf w).toNat)) := by
  obtain ⟨rfl, -⟩ := encode_of_decode hi
  obtain ⟨d, ⟨rfl, hd⟩ | ⟨rfl, hd⟩ | ⟨rfl, hd⟩⟩ := outOfRange_iff.mp hr <;>
    simp [encode, Instr.opcode, hd]

/-- Settles O52: the word decodes to a digit command above its range, and the step runs that command. -/
theorem rangeWordSetsFlagAndMaskLength : Obligations.RangeWordSetsFlagAndMaskLength := by
  unfold Obligations.RangeWordSetsFlagAndMaskLength
  rintro w ⟨i, hi, hr⟩
  obtain ⟨hop, hoperand⟩ := opcodeOf_operandOf_of_outOfRange hi hr
  rw [hop]
  refine ⟨hoperand, fun s rest hin => ?_⟩
  obtain ⟨hstep, -⟩ := stepRunsDecodedCommand
  obtain ⟨m, hlen, e⟩ := exec_of_outOfRange hr (s.setInbox rest)
  exact ⟨m, (hstep s w i rest hin hi).trans e, hlen⟩

/-! ### Which word raises which condition (R123) -/

theorem raises_iff_of_command (hi : decode w = .command i) {c : Condition} :
    raises w c ↔ c = .range ∧ Instr.outOfRange i = true := by
  cases c <;> simp [raises, hi, Decoded.isCommand]

theorem raises_iff_of_illegal {cause : IllegalCause} (hw : decode w = .illegal cause) {c : Condition} :
    raises w c ↔ c = .ill := by
  cases c <;> simp [raises, hw, Decoded.isCommand]

/-- RANGE is raised by a command, ILL by a word that is none. -/
theorem not_raises_both (w : Word) : ¬ (raises w .ill ∧ raises w .range) := by
  rintro ⟨hill, i, hi, -⟩
  obtain ⟨hrange, -⟩ := (raises_iff_of_command hi).mp hill
  cases hrange

/-! ### The flags after a command, after a word, after a step (R123, R130) -/

theorem flag_clearFlags (s : State) (c : Condition) : s.clearFlags.flag c = false := by
  rw [State.flag, State.clearFlags_status, getLsbD_statusCleared]
  cases c <;> exact Bool.and_false _

/-- A command sets RANGE above its range, CLRSTAT clears both flags, and every other command keeps them. -/
theorem flag_of_exec (h : exec i s = .next t) (c : Condition) :
    t.flag c = true ↔ (c = .range ∧ Instr.outOfRange i = true) ∨ (s.flag c = true ∧ i ≠ .clrstat) := by
  by_cases hr : Instr.outOfRange i = true
  · have hne : i ≠ .clrstat := by rintro rfl; cases hr
    have hraised : t.flag c = (s.flag c || decide (c = .range)) := by
      obtain ⟨m, -, e⟩ := exec_of_outOfRange hr s
      cases e.symm.trans h
      exact flag_raise s .range c
    simp [hraised, hr, hne, or_comm]
  · by_cases hi : i = .clrstat
    · subst hi
      have hcleared : t.flag c = false := by
        cases h
        exact flag_clearFlags s c
      simp [hcleared, hr]
    · obtain ⟨-, -, -, -, -, -, hstatus, -⟩ := commandsWriteOnlyTheirElements i s t h
      have hkept : t.flag c = s.flag c := congrArg (·.getLsbD c.code) (hstatus ⟨hi, Bool.eq_false_iff.mpr hr⟩)
      simp [hkept, hr, hi]

/-- After a word a flag is set exactly if the word raises it, or it was set and the word is not CLRSTAT. -/
theorem flag_of_runWord (h : runWord w s = .next t) (c : Condition) :
    t.flag c = true ↔ raises w c ∨ (s.flag c = true ∧ decode w ≠ .command .clrstat) := by
  rcases runWord_cases w s with ⟨i, hi, e⟩ | ⟨cause, hw, e⟩
  · simp [raises_iff_of_command hi, flag_of_exec (e.symm.trans h), hi]
  · cases e.symm.trans h
    have hraised : s.illegalWord.flag c = (s.flag c || decide (c = .ill)) := flag_raise s .ill c
    simp [raises_iff_of_illegal hw, hraised, hw, or_comm]

/-- Settles O27: the step waits, answers a read, or runs a word. -/
theorem flagsAreStickyAndSetOnlyByTheirCause : Obligations.FlagsAreStickyAndSetOnlyByTheirCause := by
  unfold Obligations.FlagsAreStickyAndSetOnlyByTheirCause
  refine ⟨rfl, rfl, fun s t c h hreset => ?_⟩
  rcases step_next_cases h with ⟨hin, rfl⟩ | ⟨w, rest, hin, hw⟩ | ⟨i, rest, hin, rfl⟩ | ⟨w, v, rest, hin, -⟩
  · simp [hin]
  · simpa [hin, State.flag] using flag_of_runWord hw c
  · simp [hin]
  · exact absurd hin (hreset w v rest)

/-- Settles O28: from clear flags, a step that leaves both set ran a word that raises both. -/
theorem oneWordRaisesAtMostOneCondition : Obligations.OneWordRaisesAtMostOneCondition := by
  unfold Obligations.OneWordRaisesAtMostOneCondition
  refine ⟨not_raises_both, fun s t h hill hrange ⟨hill', hrange'⟩ => ?_⟩
  rcases step_next_cases h with ⟨-, rfl⟩ | ⟨w, rest, -, hw⟩ | ⟨i, rest, -, rfl⟩ | ⟨w, v, rest, -, -, rfl⟩
  · exact absurd hill' (Bool.eq_false_iff.mp hill)
  · have hraised (c : Condition) (hclear : s.flag c = false) (hset : t.flag c = true) : raises w c :=
      ((flag_of_runWord hw c).mp hset).resolve_right fun ⟨hkept, _⟩ =>
        absurd hkept (Bool.eq_false_iff.mp hclear)
    exact not_raises_both w ⟨hraised .ill hill hill', hraised .range hrange hrange'⟩
  · exact absurd hill' (Bool.eq_false_iff.mp hill)
  · exact absurd hill' (by simp [State.ill, State.flag])

/-! ### Stops (R126, R130) -/

theorem loadDigits_completes (max len : Nat) (render : Nat → List Bool) (d : BitVec 28) (s : State) :
    ∃ t, loadDigits max len render d s = .next t := by
  rcases loadDigits_cases max len render d s with ⟨-, e⟩ | ⟨-, e⟩
  · exact ⟨_, e⟩
  · exact ⟨_, e⟩

theorem exec_completes (hi : i ≠ .emit) (s : State) : ∃ t, exec i s = .next t := by
  cases i with
  | nop | clear | setcolor | maskclr | maskpush | composite | serp | fill | clrstat => exact ⟨_, rfl⟩
  | glyph2 d | glyph4 d | glyph8 d => exact loadDigits_completes ..
  | emit => exact absurd rfl hi

/-- Settles O30: EMIT serializes or faults at an unwritten pixel, and every other command completes. -/
theorem onlyEmitCanStop : Obligations.OnlyEmitCanStop := by
  unfold Obligations.OnlyEmitCanStop
  intro i s
  by_cases hi : i = .emit
  · subst hi
    rw [show exec .emit s = execEmit s from rfl]
    rcases execEmit_cases s with ⟨f, -, e⟩ | ⟨p, -, e⟩ <;> simp [e, eq_comm]
  · obtain ⟨t, e⟩ := exec_completes hi s
    simp [e]

/-! ### Idle steps and refused resets (R126, R137, R141) -/

/-- Settles O13: without a command or a reset a step only waits or answers a read. -/
theorem onlyCommandsAndResetChangeTheBlock : Obligations.OnlyCommandsAndResetChangeTheBlock := by
  unfold Obligations.OnlyCommandsAndResetChangeTheBlock
  refine ⟨fun s => step_nil, fun s t h hcommand hreset => ?_⟩
  rcases step_next_cases h with ⟨-, rfl⟩ | ⟨w, rest, hin, -⟩ | ⟨i, rest, -, rfl⟩ | ⟨w, v, rest, hin, -⟩
  · simp
  · exact absurd hin (hcommand w rest)
  · simp
  · exact absurd hin (hreset w v rest)

/-- Settles O21: the sampled parameters are the ones the reset checks. -/
theorem invalidResetIsRefused : Obligations.InvalidResetIsRefused := by
  unfold Obligations.InvalidResetIsRefused
  intro s w h rest hin hinvalid
  rw [step_cons hin]
  rcases resetBlock_cases w h (s.setInbox rest) with ⟨hvalid, -⟩ | ⟨-, e⟩
  · exact absurd hvalid hinvalid
  · exact e

end Sys2Proof.Machine
end

section
/-! PROOFS. Launch, reset, and the first commands after it (70_reset_and_hazards.md R138, R139, R141, R142). -/

namespace Sys2Proof.Machine

variable {s t : State} {p : Params}

/-! ### What a reset and a launch leave -/

/-- A reset that samples a valid configuration restarts the block with it (R138). -/
theorem step_reset {w h : BitVec 16} {rest : List Input} (hin : s.inbox = .reset w h :: rest)
    (hvalid : (sampledParams s.params w h).Valid) :
    step s = .next ((s.setInbox rest).restarted (sampledParams s.params w h)) := by
  rw [step_cons hin]
  rcases resetBlock_cases w h (s.setInbox rest) with ⟨-, e⟩ | ⟨hinvalid, -⟩
  · exact e
  · exact absurd hvalid hinvalid

/-- Settles O19: every element of a restarted block has its reset value, and no cell holds a pixel. -/
theorem resetPutsEveryElementInItsResetState : Obligations.ResetPutsEveryElementInItsResetState := by
  unfold Obligations.ResetPutsEveryElementInItsResetState
  intro s w h rest hin hvalid
  have hunwritten := State.fbw_of_fb_replicate_none (State.restarted_fb (s.setInbox rest) (sampledParams s.params w h))
  exact ⟨_, step_reset hin hvalid, rfl, rfl, rfl, rfl, rfl, List.length_replicate, hunwritten, rfl, rfl, rfl, rfl, rfl⟩

/-- The upper bounds of R141 that `Params.Valid` leaves out are the widths of the parameters. -/
theorem valid_iff_launchConstraints : p.Valid ↔
    1 ≤ p.w.toNat ∧ p.w.toNat ≤ 65535 ∧ 1 ≤ p.h.toNat ∧ p.h.toNat ≤ 65535 ∧
      p.w.toNat * p.h.toNat ≤ p.nmax.toNat ∧ p.nmax.toNat ≤ 2 ^ 32 - 1 ∧
      p.nmax.toNat ≤ p.mmax.toNat ∧ 256 ≤ p.mmax.toNat ∧ p.mmax.toNat ≤ 2 ^ 32 - 1 := by
  have hw := Nat.le_pred_of_lt p.w.isLt
  have hh := Nat.le_pred_of_lt p.h.isLt
  have hnmax := Nat.le_pred_of_lt p.nmax.isLt
  have hmmax := Nat.le_pred_of_lt p.mmax.isLt
  constructor
  · rintro ⟨hw1, hh1, hgrid, hcap, hrender⟩
    exact ⟨hw1, hw, hh1, hh, hgrid, hnmax, hcap, hrender, hmmax⟩
  · rintro ⟨hw1, -, hh1, -, hgrid, -, hcap, hrender, -⟩
    exact ⟨hw1, hh1, hgrid, hcap, hrender⟩

/-- Settles O20: R141's list is what `launch` checks. -/
theorem launchConstraints : Obligations.LaunchConstraints := by
  unfold Obligations.LaunchConstraints
  intro p
  rw [← valid_iff_launchConstraints]
  exact ⟨fun hvalid => ⟨launch_of_valid hvalid, freshAfterReset_fresh hvalid⟩, launch_of_not_valid⟩

/-- The state of a launch is that of a restart, so it has the invariant for the same reason. -/
theorem inv_fresh (hp : p.Valid) : (State.fresh p).Inv :=
  inv_restarted (State.fresh p) hp

/-- Settles O23: `State.reset` is the fresh state of a valid launch. -/
theorem invariantHoldsAfterReset : Obligations.InvariantHoldsAfterReset :=
  ⟨inv_fresh launch_valid, fun _ => inv_fresh⟩

/-! ### Who changes the parameters (R139) -/

theorem runWord_next_params {w : Word} (h : runWord w s = .next t) : t.params = s.params := by
  rcases runWord_cases w s with ⟨i, -, e⟩ | ⟨c, -, e⟩
  · obtain ⟨hparams, -⟩ := exec_next_ports (e.symm.trans h)
    exact hparams
  · cases e.symm.trans h
    exact State.illegalWord_params s

/-- A step keeps the parameters, or takes a reset and replaces W and H alone (R139). -/
theorem step_next_params (h : step s = .next t) :
    t.params = s.params ∨ ∃ w v rest, s.inbox = .reset w v :: rest ∧ t.params = sampledParams s.params w v := by
  rcases step_next_cases h with ⟨-, rfl⟩ | ⟨w, rest, -, hw⟩ | ⟨i, rest, -, rfl⟩ | ⟨w, v, rest, hin, -, rfl⟩
  · exact .inl rfl
  · exact .inl ((runWord_next_params hw).trans (State.setInbox_params s rest))
  · exact .inl rfl
  · exact .inr ⟨w, v, rest, hin, rfl⟩

/-- Settles O18: sampling replaces W and H and no other parameter. -/
theorem onlyResetChangesTheGrid : Obligations.OnlyResetChangesTheGrid := by
  unfold Obligations.OnlyResetChangesTheGrid
  intro s t h
  rcases step_next_params h with hkept | ⟨w, v, rest, hin, hsampled⟩
  · rw [hkept]
    exact ⟨.inl rfl, rfl, rfl, rfl, rfl, rfl⟩
  · rw [hsampled]
    exact ⟨.inr ⟨w, v, rest, hin, rfl, rfl⟩, rfl, rfl, rfl, rfl, rfl⟩

/-! ### The first commands after reset (R142) -/

theorem npix_pos (hp : p.Valid) : 0 < p.npix := by
  obtain ⟨hw, hh, -⟩ := hp
  exact Nat.mul_pos hw hh

/-- An empty mask selects no pixel, so the layer leaves every cell as it is (R25, R92). -/
theorem paintCells_nil (n : Nat) (c : Pixel) (fb : List (Option Pixel)) : paintCells n [] c fb = fb :=
  List.ext_getElem? fun q => getElem?_paintCells_unselected n c fb (maskBit_nil q)

theorem exec_composite_of_mask_nil (h : s.mask = []) : exec .composite s = .next s.complete := by
  rw [exec_composite, h, paintCells_nil]
  rfl

/-- Settles O59: after reset the mask selects nothing and pixel 0 is not written; CLEAR writes every pixel. -/
theorem clearBeforeTheFirstEmit : Obligations.ClearBeforeTheFirstEmit := by
  unfold Obligations.ClearBeforeTheFirstEmit
  intro s hs
  have hfault : exec .emit s = .fault (.uninitRead 0) :=
    exec_emit_of_unwritten (npix_pos hs.params) (hs.unwritten 0) fun q hq => absurd hq q.not_lt_zero
  have hemit := exec_emit_of_serialize (serialize_cleared (t := (s.setFb (clearedCells s.npix)).complete) rfl)
  exact ⟨exec_composite_of_mask_nil hs.mask, hfault, _, _, exec_clear s, hemit⟩

end Sys2Proof.Machine
end
